-- ==== Sys2Proof/Word.lean ====
section
/-! DEFINITION. The word types of the CORE: bytes, 16-bit words, register numbers (spec/00_scope.md R7, R8). -/

namespace Sys2Proof

/-- An 8-bit byte: a register value, a memory byte, a timer (V_WIDTH, TIMER_WIDTH). -/
abbrev Byte := BitVec 8

/-- A 16-bit word: an opcode, the program counter, the index register, a stack entry. -/
abbrev Word := BitVec 16

/-- The number of a general register V0–VF, and of a key 0–F (NUM_V = NUM_KEYS = 16). -/
abbrev Reg := Fin 16

/-- VF, the register that several instructions also write as a flag (R22). -/
abbrev vf : Reg := 15

end Sys2Proof
end

