-- ==== Sys2Proof/Syntax.lean ====
section
/-! DEFINITION. The 34 instructions of the base CHIP-8 set (spec/30_encoding.md R84), one constructor per row of
spec/opcode_table.json, in the table's order. Operands have exactly the width of their field (R80, R82). -/

namespace Sys2Proof

/-- The instruction set of R84. `x` and `y` are register numbers, `nn` an 8-bit immediate, `nnn` a 12-bit address,
`n` a count of sprite rows. -/
inductive Instr where
  /-- 00E0, R100 -/
  | cls
  /-- 00EE, R110 -/
  | ret
  /-- 1NNN, R111 -/
  | jp (nnn : BitVec 12)
  /-- 2NNN, R112 -/
  | call (nnn : BitVec 12)
  /-- 3XNN, R120 -/
  | seImm (x : Reg) (nn : Byte)
  /-- 4XNN, R121 -/
  | sneImm (x : Reg) (nn : Byte)
  /-- 5XY0, R122 -/
  | seReg (x y : Reg)
  /-- 6XNN, R131 -/
  | ldImm (x : Reg) (nn : Byte)
  /-- 7XNN, R132 -/
  | addImm (x : Reg) (nn : Byte)
  /-- 8XY0, R133 -/
  | ldReg (x y : Reg)
  /-- 8XY1, R134 -/
  | or (x y : Reg)
  /-- 8XY2, R135 -/
  | and (x y : Reg)
  /-- 8XY3, R136 -/
  | xor (x y : Reg)
  /-- 8XY4, R137 -/
  | addReg (x y : Reg)
  /-- 8XY5, R138 -/
  | sub (x y : Reg)
  /-- 8XY6, R139; `y` is the don't-care field of R87, kept so that the word can be given back. -/
  | shr (x y : Reg)
  /-- 8XY7, R140 -/
  | subn (x y : Reg)
  /-- 8XYE, R141; `y` is the don't-care field of R87, kept so that the word can be given back. -/
  | shl (x y : Reg)
  /-- 9XY0, R123 -/
  | sneReg (x y : Reg)
  /-- ANNN, R150 -/
  | ldI (nnn : BitVec 12)
  /-- BNNN, R113 -/
  | jpV0 (nnn : BitVec 12)
  /-- CXNN, R142 -/
  | rnd (x : Reg) (nn : Byte)
  /-- DXYN, R101 -/
  | drw (x y : Reg) (n : Fin 16)
  /-- EX9E, R124 -/
  | skp (x : Reg)
  /-- EXA1, R125 -/
  | sknp (x : Reg)
  /-- FX07, R160 -/
  | ldVxDt (x : Reg)
  /-- FX0A, R161 -/
  | ldVxK (x : Reg)
  /-- FX15, R162 -/
  | ldDt (x : Reg)
  /-- FX18, R163 -/
  | ldSt (x : Reg)
  /-- FX1E, R151 -/
  | addI (x : Reg)
  /-- FX29, R152 -/
  | ldF (x : Reg)
  /-- FX33, R153 -/
  | ldB (x : Reg)
  /-- FX55, R154 -/
  | ldStore (x : Reg)
  /-- FX65, R155 -/
  | ldLoad (x : Reg)
deriving DecidableEq, Repr

end Sys2Proof
end

