-- ==== Sys2Proof/WellFormed.lean ====
section
/-! DEFINITION. Which 16-bit words are instructions: the opcode table as mask and pattern rows, written from
spec/30_encoding.md R81 and spec/opcode_table.json and apart from the decoder. Every operand of `Instr` has exactly the
width of its field (R80), so every term of `Instr` is well formed by its type; what can be ill formed is a WORD, and
`wordWellFormed` is the check of it (R85). -/

namespace Sys2Proof

/-- The six formats of R81. -/
inductive Format where
  | fix
  | nnn
  | xnn
  | xynFn
  | xyn
  | xFn
deriving DecidableEq, Repr

/-- A row of the opcode table: its name, its format, the fixed bits (mask) and their values (pattern). -/
structure OpcodeRow where
  mnemonic : String
  format : Format
  mask : Word
  pattern : Word
deriving DecidableEq, Repr

/-- The word has the row's fixed bits. -/
def OpcodeRow.accepts (r : OpcodeRow) (w : Word) : Bool := w &&& r.mask == r.pattern

/-- No word has the fixed bits of both rows: some bit that both fix has different values. -/
def OpcodeRow.disjoint (r q : OpcodeRow) : Bool := r.pattern &&& q.mask != q.pattern &&& r.mask

/-- Rows of spec/opcode_table.json: display and control. -/
def tableControl : List OpcodeRow := [
  ⟨"CLS", .fix, 0xFFFF, 0x00E0⟩,
  ⟨"RET", .fix, 0xFFFF, 0x00EE⟩,
  ⟨"JP", .nnn, 0xF000, 0x1000⟩,
  ⟨"CALL", .nnn, 0xF000, 0x2000⟩]

/-- Rows of spec/opcode_table.json: skips and loads. -/
def tableSkipsLoads : List OpcodeRow := [
  ⟨"SE_IMM", .xnn, 0xF000, 0x3000⟩,
  ⟨"SNE_IMM", .xnn, 0xF000, 0x4000⟩,
  ⟨"SE_REG", .xynFn, 0xF00F, 0x5000⟩,
  ⟨"LD_IMM", .xnn, 0xF000, 0x6000⟩,
  ⟨"ADD_IMM", .xnn, 0xF000, 0x7000⟩]

/-- Rows of spec/opcode_table.json: ALU. -/
def tableAlu : List OpcodeRow := [
  ⟨"LD_REG", .xynFn, 0xF00F, 0x8000⟩,
  ⟨"OR", .xynFn, 0xF00F, 0x8001⟩,
  ⟨"AND", .xynFn, 0xF00F, 0x8002⟩,
  ⟨"XOR", .xynFn, 0xF00F, 0x8003⟩,
  ⟨"ADD_REG", .xynFn, 0xF00F, 0x8004⟩,
  ⟨"SUB", .xynFn, 0xF00F, 0x8005⟩,
  ⟨"SHR", .xynFn, 0xF00F, 0x8006⟩,
  ⟨"SUBN", .xynFn, 0xF00F, 0x8007⟩,
  ⟨"SHL", .xynFn, 0xF00F, 0x800E⟩,
  ⟨"SNE_REG", .xynFn, 0xF00F, 0x9000⟩]

/-- Rows of spec/opcode_table.json: index, jump, random, sprite, keys. -/
def tableMiddle : List OpcodeRow := [
  ⟨"LD_I", .nnn, 0xF000, 0xA000⟩,
  ⟨"JP_V0", .nnn, 0xF000, 0xB000⟩,
  ⟨"RND", .xnn, 0xF000, 0xC000⟩,
  ⟨"DRW", .xyn, 0xF000, 0xD000⟩,
  ⟨"SKP", .xFn, 0xF0FF, 0xE09E⟩,
  ⟨"SKNP", .xFn, 0xF0FF, 0xE0A1⟩]

/-- Rows of spec/opcode_table.json: timers, keys, index and memory. -/
def tableFx : List OpcodeRow := [
  ⟨"LD_VX_DT", .xFn, 0xF0FF, 0xF007⟩,
  ⟨"LD_VX_K", .xFn, 0xF0FF, 0xF00A⟩,
  ⟨"LD_DT", .xFn, 0xF0FF, 0xF015⟩,
  ⟨"LD_ST", .xFn, 0xF0FF, 0xF018⟩,
  ⟨"ADD_I", .xFn, 0xF0FF, 0xF01E⟩,
  ⟨"LD_F", .xFn, 0xF0FF, 0xF029⟩,
  ⟨"LD_B", .xFn, 0xF0FF, 0xF033⟩,
  ⟨"LD_STORE", .xFn, 0xF0FF, 0xF055⟩,
  ⟨"LD_LOAD", .xFn, 0xF0FF, 0xF065⟩]

/-- The opcode table, all 34 rows in its order. -/
def opcodeRows : List OpcodeRow := tableControl ++ tableSkipsLoads ++ tableAlu ++ tableMiddle ++ tableFx

/-- The word is legal: some row of the table accepts it (R83, R85). -/
def wordWellFormed (w : Word) : Bool := opcodeRows.any (·.accepts w)

end Sys2Proof
end

