-- ==== Sys2Proof/Decode.lean ====
section
/-! DEFINITION. The decoder (spec/30_encoding.md R83), total on every word and on any bytes, and the encoder, written from
the encodings of R80, R81 and the instruction rules. Fetch is big-endian (spec/20_memory.md R60). -/

namespace Sys2Proof

/-- X, op[11:8] (R80). -/
def fieldX (w : Word) : Reg := (w.extractLsb' 8 4).toFin

/-- Y, op[7:4] (R80). -/
def fieldY (w : Word) : Reg := (w.extractLsb' 4 4).toFin

/-- N, op[3:0] (R80). -/
def fieldN (w : Word) : Fin 16 := (w.extractLsb' 0 4).toFin

/-- NN, op[7:0] (R80). -/
def fieldNN (w : Word) : Byte := w.extractLsb' 0 8

/-- NNN, op[11:0] (R80). -/
def fieldNNN (w : Word) : BitVec 12 := w.extractLsb' 0 12

/-- Family 0x0 of R83: only 00E0 and 00EE. -/
def decode0 (w : Word) : Option Instr :=
  if w = 0x00E0#16 then some .cls else if w = 0x00EE#16 then some .ret else none

/-- Family 0x8 of R83: the minor opcode n selects the operation. -/
def decode8 (x y n : Fin 16) : Option Instr :=
  match n with
  | 0x0 => some (.ldReg x y)
  | 0x1 => some (.or x y)
  | 0x2 => some (.and x y)
  | 0x3 => some (.xor x y)
  | 0x4 => some (.addReg x y)
  | 0x5 => some (.sub x y)
  | 0x6 => some (.shr x y)
  | 0x7 => some (.subn x y)
  | 0xE => some (.shl x y)
  | _ => none

/-- Family 0xE of R83: the minor opcode nn selects the operation. -/
def decodeE (x : Reg) (nn : Byte) : Option Instr :=
  match nn with
  | 0x9E#8 => some (.skp x)
  | 0xA1#8 => some (.sknp x)
  | _ => none

/-- Family 0xF of R83: the minor opcode nn selects the operation. -/
def decodeF (x : Reg) (nn : Byte) : Option Instr :=
  match nn with
  | 0x07#8 => some (.ldVxDt x)
  | 0x0A#8 => some (.ldVxK x)
  | 0x15#8 => some (.ldDt x)
  | 0x18#8 => some (.ldSt x)
  | 0x1E#8 => some (.addI x)
  | 0x29#8 => some (.ldF x)
  | 0x33#8 => some (.ldB x)
  | 0x55#8 => some (.ldStore x)
  | 0x65#8 => some (.ldLoad x)
  | _ => none

/-- The instruction router of R83, on the top nibble and then on sub-nibbles; `none` is the rule's Unknown. -/
def decodeWord (w : Word) : Option Instr :=
  let x := fieldX w
  let y := fieldY w
  match w.extractLsb' 12 4 with
  | 0x0#4 => decode0 w
  | 0x1#4 => some (.jp (fieldNNN w))
  | 0x2#4 => some (.call (fieldNNN w))
  | 0x3#4 => some (.seImm x (fieldNN w))
  | 0x4#4 => some (.sneImm x (fieldNN w))
  | 0x5#4 => if fieldN w = 0 then some (.seReg x y) else none
  | 0x6#4 => some (.ldImm x (fieldNN w))
  | 0x7#4 => some (.addImm x (fieldNN w))
  | 0x8#4 => decode8 x y (fieldN w)
  | 0x9#4 => if fieldN w = 0 then some (.sneReg x y) else none
  | 0xA#4 => some (.ldI (fieldNNN w))
  | 0xB#4 => some (.jpV0 (fieldNNN w))
  | 0xC#4 => some (.rnd x (fieldNN w))
  | 0xD#4 => some (.drw x y (fieldN w))
  | 0xE#4 => decodeE x (fieldNN w)
  | _ => decodeF x (fieldNN w)   -- 0xF, the one nibble left

/-- Why bytes give no instruction. -/
inductive DecodeError where
  /-- The word is none of the table's (R85). -/
  | unknownOpcode (w : Word)
  /-- Fewer than the two bytes of an instruction (R80). -/
  | truncated
deriving DecidableEq, Repr

/-- The word of two consecutive bytes, the first in bits 15–8 (R60). -/
def wordOfBytes (hi lo : Byte) : Word := hi ++ lo

/-- Decode the first two bytes of any bytes, and give back the rest. -/
def decode : List Byte → Except DecodeError (Instr × List Byte)
  | hi :: lo :: rest =>
    match decodeWord (wordOfBytes hi lo) with
    | some i => .ok (i, rest)
    | none => .error (.unknownOpcode (wordOfBytes hi lo))
  | _ => .error .truncated

/-- Format NNN of R81: major opcode, then a 12-bit address. -/
def wordNNN (op : BitVec 4) (nnn : BitVec 12) : Word := op ++ nnn

/-- Format XNN of R81: major opcode, X, then an 8-bit immediate. It is also format X_FN, with the minor opcode as NN. -/
def wordXNN (op : BitVec 4) (x : Reg) (nn : Byte) : Word := op ++ BitVec.ofFin (w := 4) x ++ nn

/-- Formats XYN and XYN_FN of R81: major opcode, X, Y, then a count or a minor opcode. -/
def wordXYN (op : BitVec 4) (x y n : Fin 16) : Word :=
  op ++ BitVec.ofFin (w := 4) x ++ BitVec.ofFin (w := 4) y ++ BitVec.ofFin (w := 4) n

/-- The word of an instruction, from the encoding its rule gives (the patterns of R84 in the formats of R81). -/
def encode : Instr → Word
  | .cls => 0x00E0
  | .ret => 0x00EE
  | .jp nnn => wordNNN 0x1 nnn
  | .call nnn => wordNNN 0x2 nnn
  | .seImm x nn => wordXNN 0x3 x nn
  | .sneImm x nn => wordXNN 0x4 x nn
  | .seReg x y => wordXYN 0x5 x y 0x0
  | .ldImm x nn => wordXNN 0x6 x nn
  | .addImm x nn => wordXNN 0x7 x nn
  | .ldReg x y => wordXYN 0x8 x y 0x0
  | .or x y => wordXYN 0x8 x y 0x1
  | .and x y => wordXYN 0x8 x y 0x2
  | .xor x y => wordXYN 0x8 x y 0x3
  | .addReg x y => wordXYN 0x8 x y 0x4
  | .sub x y => wordXYN 0x8 x y 0x5
  | .shr x y => wordXYN 0x8 x y 0x6
  | .subn x y => wordXYN 0x8 x y 0x7
  | .shl x y => wordXYN 0x8 x y 0xE
  | .sneReg x y => wordXYN 0x9 x y 0x0
  | .ldI nnn => wordNNN 0xA nnn
  | .jpV0 nnn => wordNNN 0xB nnn
  | .rnd x nn => wordXNN 0xC x nn
  | .drw x y n => wordXYN 0xD x y n
  | .skp x => wordXNN 0xE x 0x9E
  | .sknp x => wordXNN 0xE x 0xA1
  | .ldVxDt x => wordXNN 0xF x 0x07
  | .ldVxK x => wordXNN 0xF x 0x0A
  | .ldDt x => wordXNN 0xF x 0x15
  | .ldSt x => wordXNN 0xF x 0x18
  | .addI x => wordXNN 0xF x 0x1E
  | .ldF x => wordXNN 0xF x 0x29
  | .ldB x => wordXNN 0xF x 0x33
  | .ldStore x => wordXNN 0xF x 0x55
  | .ldLoad x => wordXNN 0xF x 0x65

/-- The two bytes of a word as memory holds them, the high byte at the lower address (R60). -/
def bytesOfWord (w : Word) : List Byte := [w.extractLsb' 8 8, w.extractLsb' 0 8]

/-- The bytes of an instruction as memory holds them. -/
def encodeBytes (i : Instr) : List Byte := bytesOfWord (encode i)

/-- The 16-bit word of an opcode-table word of `nbits` bits (bit 0 of `w` is the least significant bit of the one
instruction word); bits above `nbits` are 0. -/
def tableWord (nbits w : Nat) : Word := BitVec.ofNat 16 (w % 2 ^ nbits)

/-- What the decoder reads from the bytes of an opcode-table word. -/
def decodeTableWord (nbits w : Nat) : Option Instr :=
  match decode (bytesOfWord (tableWord nbits w)) with
  | .ok (i, _) => some i
  | .error _ => none

end Sys2Proof
end

