-- ==== Sys2Proof/Config.lean ====
section
/-! DEFINITION. What an implementation fixes: the numeric parameters of spec/00_scope.md R7, the two OPEN parameters and
the random bytes. The OPEN parameters and the random bytes have no body: a claim about them holds for every value.
FONT_BASE, FONT_DATA and RESERVED_WRITE_FAULT stand in Machine/Params.lean. -/

namespace Sys2Proof

/-- MEM_SIZE: the memory bank holds 4096 bytes (R7, R50). -/
def Config.memSize : Nat := 4096

/-- ADDR_MAX: the highest address of the bank (R7). -/
def Config.addrMax : Nat := 0xFFF

/-- PROG_START: where a ROM is loaded and the first address above the reserved region (R7). -/
def Config.progStart : Nat := 0x200

/-- ROM_MAX: the longest ROM, 4096 − 0x200 bytes (R7). -/
def Config.romMax : Nat := 3584

/-- The values of FX1E_OVERFLOW (R7, R151). -/
inductive OverflowPolicy where
  /-- I takes the low 12 bits of the sum. -/
  | wrap12
  /-- The sum raises MemoryFault. -/
  | fault
deriving DecidableEq, Repr, Inhabited

/-- The values of KEY_INDEX_OOR (R7, R126). -/
inductive KeyIndexPolicy where
  /-- A key index above 0xF selects the key of its low nibble. -/
  | lowNibble
  /-- A key index above 0xF raises KeyIndexFault. -/
  | fault
deriving DecidableEq, Repr, Inhabited

/-- FX1E_OVERFLOW, OPEN in R7: what ADD_I does when I + Vx is above 0xFFF (R151, D15; log 3). Safe. -/
opaque Config.fx1eOverflow : OverflowPolicy

/-- KEY_INDEX_OOR, OPEN in R7: what SKP and SKNP do with Vx above 0xF (R126, D16; log 4). Safe. -/
opaque Config.keyIndexOor : KeyIndexPolicy

/-- The random input r of the k-th RND (R143, D18): a free value, any byte for each k (log 2). Safe. -/
opaque Config.randomByte : Nat → Byte

end Sys2Proof
end

