-- ==== Sys2Proof/Machine/Params.lean ====
section
/-! DEFINITION. The parameters of spec/00_scope.md R7 whose value the spec gives as its own default: RESERVED_WRITE_FAULT,
FONT_BASE and FONT_DATA (spec/20_memory.md R52, R55, R56). A statement that depends on one names it. -/

namespace Sys2Proof.Machine

/-- RESERVED_WRITE_FAULT: an engine write below 0x200 is a MemoryFault (R52, D7; log 6). -/
def reservedWriteFault : Bool := true

/-- FONT_BASE: where the font table stands (R56, D8; log 6). -/
def fontBase : Nat := 0x000

/-- The bytes of glyphs 0–3 (R55). PRESUMED, log 5. -/
def glyphs0 : List Byte := [
  0xF0, 0x90, 0x90, 0x90, 0xF0,
  0x20, 0x60, 0x20, 0x20, 0x70,
  0xF0, 0x10, 0xF0, 0x80, 0xF0,
  0xF0, 0x10, 0xF0, 0x10, 0xF0]

/-- The bytes of glyphs 4–7 (R55). PRESUMED, log 5. -/
def glyphs4 : List Byte := [
  0x90, 0x90, 0xF0, 0x10, 0x10,
  0xF0, 0x80, 0xF0, 0x10, 0xF0,
  0xF0, 0x80, 0xF0, 0x90, 0xF0,
  0xF0, 0x10, 0x20, 0x40, 0x40]

/-- The bytes of glyphs 8–B (R55). PRESUMED, log 5. -/
def glyphs8 : List Byte := [
  0xF0, 0x90, 0xF0, 0x90, 0xF0,
  0xF0, 0x90, 0xF0, 0x10, 0xF0,
  0xF0, 0x90, 0xF0, 0x90, 0x90,
  0xE0, 0x90, 0xE0, 0x90, 0xE0]

/-- The bytes of glyphs C–F (R55). PRESUMED, log 5. -/
def glyphsC : List Byte := [
  0xF0, 0x80, 0x80, 0x80, 0xF0,
  0xE0, 0x90, 0x90, 0x90, 0xE0,
  0xF0, 0x80, 0xF0, 0x80, 0xF0,
  0xF0, 0x80, 0xF0, 0x80, 0x80]

/-- FONT_DATA: 16 glyphs of 5 bytes, glyph 0 first, top row first. The values are the spec's default, which it takes from
general knowledge (R55, D9). PRESUMED, log 5. -/
def fontData : List Byte := glyphs0 ++ glyphs4 ++ glyphs8 ++ glyphsC

/-- The byte INIT leaves at an address: FONT_DATA at FONT_BASE..FONT_BASE+79, 0x00 everywhere else (R42, R200). -/
def resetByte (a : Nat) : Byte := if a < fontBase then 0x00 else fontData.getD (a - fontBase) 0x00

end Sys2Proof.Machine
end

