-- ==== Sys2Proof/Machine/State.lean ====
section
/-! DEFINITION. The architectural state of the CORE (spec/10_state.md R20), the fault record (spec/60_exceptions.md R171),
the reasons a step could stop without a next state, and the state after INIT (R42). -/

namespace Sys2Proof.Machine

/-- The memory bank (R50) as the bytes that differ from what INIT leaves: address and byte, addresses strictly rising, no
entry equal to the reset byte of its address (`Memory.wf`, Machine/Ops.lean). -/
abbrev Memory := List Host.Cell

/-- The 64×32 framebuffer of one-bit pixels, `fb[x][y]` (R28). -/
abbrev Frame := Vector (Vector Bool 32) 64

/-- The five fault kinds of R170. -/
inductive FaultKind where
  | memoryFault
  | stackOverflow
  | stackUnderflow
  | unknownOpcode
  | keyIndexFault
deriving DecidableEq, Repr

/-- The fault record of R171. -/
structure FaultRecord where
  kind : FaultKind
  /-- the fetch address of the faulting instruction -/
  pc : Word
  /-- the fetched word; none for a MemoryFault of the fetch itself -/
  opcode : Option Word
  /-- the offending address of a MemoryFault -/
  addr : Option Word
  /-- the value of Vx of a KeyIndexFault -/
  key : Option Byte
deriving DecidableEq, Repr

/-- The state of R20, every element of it, and one field of the model's own. -/
structure State where
  /-- memory bank, R50 -/
  mem : Memory
  /-- general registers V0–VF, R21 -/
  v : Vector Byte 16
  /-- index register I, R23 -/
  i : Word
  /-- program counter, R24 -/
  pc : Word
  /-- stack pointer, 0 to 16, R25 -/
  sp : Fin 17
  /-- return-address stack, R25 -/
  stack : Vector Word 16
  /-- delay timer, R26 -/
  dt : Byte
  /-- sound timer, R26 -/
  st : Byte
  /-- key latch, R27 -/
  key : Vector Bool 16
  /-- framebuffer, R28 -/
  fb : Frame
  /-- redraw-pending flag, R33 -/
  redraw : Bool
  /-- fault status, R171 -/
  fault : Option FaultRecord
  /-- the model's own: how many random inputs RND has used (R143, log 2) -/
  draws : Nat
deriving DecidableEq, Repr

/-- A step that stops with no next state. There is none on this hardware: every fault of R170 has an entry the spec
describes, the recorded halt of R172 and R173, and is a next state (log 8). Safe. -/
inductive Fault
deriving DecidableEq, Repr

/-- A step the model refuses. -/
inductive Refusal where
  /-- An instruction with no meaning in the model, by its mnemonic. Raised by a refused arm of exec only, and no arm is
  refused. Safe. -/
  | notModelled (mnemonic : String)
deriving DecidableEq, Repr

/-- The machine after INIT, every element at its value of R42. -/
def State.reset : State where
  mem := []
  v := Vector.replicate 16 0x00
  i := 0x0000
  pc := 0x0200
  sp := 0
  stack := Vector.replicate 16 0x0000
  dt := 0
  st := 0
  key := Vector.replicate 16 false
  fb := Vector.replicate 64 (Vector.replicate 32 false)
  redraw := false
  fault := none
  draws := 0

end Sys2Proof.Machine
end

