-- ==== Sys2Proof/Machine/Ops.lean ====
section
/-! DEFINITION. The named operations over memory, registers, stack, framebuffer and key latch, the access checks, the
fetch, and TAKING A FAULT (spec/60_exceptions.md R170–R174). -/

namespace Sys2Proof.Machine

/-- What an instruction answers. -/
abbrev Result := Host.Outcome State Fault Refusal

/-! ### Memory (spec/20_memory.md) -/

/-- The byte at an address (R53); an unlisted address holds what INIT left there (R42). -/
def Memory.read (m : Memory) (a : Nat) : Byte :=
  match m.find? (fun c => c.1 == a) with
  | some c => c.2
  | none => resetByte a

/-- Put a cell before the first one with a higher address. -/
def Memory.insert (c : Host.Cell) : Memory → Memory
  | [] => [c]
  | d :: m => if c.1 < d.1 then c :: d :: m else d :: Memory.insert c m

/-- Set the byte at an address (R54), and list it only where it differs from the reset byte. -/
def Memory.write (m : Memory) (a : Nat) (b : Byte) : Memory :=
  let others := m.filter (fun c => c.1 != a)
  if b = resetByte a then others else Memory.insert (a, b) others

/-- Set consecutive bytes, the first at `a`, in ascending order (R61, R62). -/
def Memory.writeBytes (m : Memory) (a : Nat) : List Byte → Memory
  | [] => m
  | b :: bs => Memory.writeBytes (m.write a b) (a + 1) bs

/-- Read `n` consecutive bytes from `a` in ascending order (R62). -/
def Memory.readBytes (m : Memory) (a : Nat) : Nat → List Byte
  | 0 => []
  | n + 1 => m.read a :: Memory.readBytes m (a + 1) n

/-- The canonical form: addresses strictly rising, and no entry equal to its address's reset byte. -/
abbrev Memory.wf (m : Memory) : Prop :=
  m.Pairwise (fun c d => c.1 < d.1) ∧ ∀ c ∈ m, c.2 ≠ resetByte c.1

/-- Every listed address lies in the bank (R50). -/
abbrev Memory.inBank (m : Memory) : Prop := ∀ c ∈ m, c.1 ≤ Config.addrMax

/-- CheckRead of R52: the read raises no fault. -/
def readOk (a : Nat) : Bool := a ≤ Config.addrMax

/-- CheckWrite of R52 for a given value of RESERVED_WRITE_FAULT. -/
def writeOkWith (reserved : Bool) (a : Nat) : Bool :=
  a ≤ Config.addrMax && !(decide (a < Config.progStart) && reserved)

/-- CheckWrite of R52: the write raises no fault. -/
def writeOk (a : Nat) : Bool := writeOkWith reservedWriteFault a

/-- The first address of `a`, `a + 1`, … (`n` of them, ascending, R174) that fails a check. -/
def firstBad (ok : Nat → Bool) (a : Nat) : Nat → Option Nat
  | 0 => none
  | n + 1 => if ok a then firstBad ok (a + 1) n else some a

/-! ### Registers, program counter, stack (spec/10_state.md) -/

/-- V[r] (R21). -/
def State.reg (s : State) (r : Reg) : Byte := s.v.get r

/-- V[r] <- b (R21). -/
def State.setReg (s : State) (r : Reg) (b : Byte) : State := { s with v := s.v.set r b }

/-- V[r] <- f r for every r up to and including x; the others keep their value (R155). -/
def State.setRegsUpTo (s : State) (x : Reg) (f : Nat → Byte) : State :=
  { s with v := Vector.ofFn fun r : Fin 16 => if r ≤ x then f r else s.v.get r }

/-- V0, …, Vx in order (R154). -/
def State.regsUpTo (s : State) (x : Reg) : List Byte := s.v.toList.take (x.val + 1)

/-- pc <- target. -/
def State.setPc (s : State) (target : Word) : State := { s with pc := target }

/-- The PC advance of R92: 2 past the fetch address, modulo 2^16. -/
def State.advance (s : State) : State := s.setPc (s.pc + 2)

/-- Skip(c) of R93, on the advanced PC. -/
def State.skipIf (s : State) (c : Bool) : State := if c then s.setPc (s.pc + 2) else s

/-- I <- w. -/
def State.setI (s : State) (w : Word) : State := { s with i := w }

/-- DT <- b. -/
def State.setDt (s : State) (b : Byte) : State := { s with dt := b }

/-- ST <- b. -/
def State.setSt (s : State) (b : Byte) : State := { s with st := b }

/-- Replace the memory bank's contents. -/
def State.setMem (s : State) (m : Memory) : State := { s with mem := m }

/-- Replace the framebuffer and set the redraw flag (R33). -/
def State.setFrame (s : State) (fb : Frame) : State := { s with fb := fb, redraw := true }

/-- Use one random input (R143, log 2). -/
def State.nextDraw (s : State) : State := { s with draws := s.draws + 1 }

/-- stack[SP] <- w; SP <- SP + 1 (R112), for SP below 16; no effect on a full stack, which CALL faults on before. -/
def State.push (s : State) (w : Word) : State :=
  if h : s.sp.val < 16 then { s with stack := s.stack.set s.sp.val w, sp := ⟨s.sp.val + 1, by omega⟩ } else s

/-- The top entry stack[SP − 1] (R110); RET faults before it reads with SP = 0. -/
def State.top (s : State) : Word := s.stack.get ⟨s.sp.val - 1, by omega⟩

/-- SP <- SP − 1 (R110); the popped entry keeps its value (R35). -/
def State.drop (s : State) : State := { s with sp := ⟨s.sp.val - 1, by omega⟩ }

/-! ### Framebuffer (spec/41_display.md) -/

/-- fb[x][y] (R28). -/
def Frame.get (fb : Frame) (x : Fin 64) (y : Fin 32) : Bool := (Vector.get fb x).get y

/-- fb[x][y] <- b (R28). -/
def Frame.put (fb : Frame) (x : Fin 64) (y : Fin 32) (b : Bool) : Frame := Vector.set fb x ((Vector.get fb x).set y b)

/-- Every pixel off (R100). -/
def Frame.blank : Frame := Vector.replicate 64 (Vector.replicate 32 false)

/-- A framebuffer being drawn on, and whether a pixel has been turned off yet (`hit` of R101). -/
structure Canvas where
  fb : Frame
  hit : Bool
deriving DecidableEq, Repr

/-- XOR one pixel on, and note a pixel turned off (R101). -/
def Canvas.flip (c : Canvas) (x : Fin 64) (y : Fin 32) : Canvas :=
  { fb := c.fb.put x y (!c.fb.get x y), hit := c.hit || c.fb.get x y }

/-- Screen column of a sprite column, with wraparound (R101). -/
def pixelX (x0 col : Nat) : Fin 64 := ⟨(x0 + col) % 64, Nat.mod_lt _ (by decide)⟩

/-- Screen row of a sprite row, with wraparound (R101). -/
def pixelY (y0 row : Nat) : Fin 32 := ⟨(y0 + row) % 32, Nat.mod_lt _ (by decide)⟩

/-- Draw one bit of a sprite byte: bit 7 − col is drawn on column x0 + col (R102, log 7). -/
def Canvas.drawBit (x0 : Nat) (y : Fin 32) (b : Byte) (c : Canvas) (col : Nat) : Canvas :=
  if b.getLsbD (7 - col) then c.flip (pixelX x0 col) y else c

/-- Draw the eight bits of a sprite byte, column 0 first (R101). -/
def Canvas.drawByte (x0 : Nat) (y : Fin 32) (b : Byte) (c : Canvas) : Canvas :=
  (List.range 8).foldl (Canvas.drawBit x0 y b) c

/-- Draw sprite bytes on consecutive screen rows, the first on row y0 + row (R101). -/
def Canvas.drawRows (x0 y0 row : Nat) (c : Canvas) : List Byte → Canvas
  | [] => c
  | b :: bs => Canvas.drawRows x0 y0 (row + 1) (c.drawByte x0 (pixelY y0 row) b) bs

/-! ### Key latch (spec/10_state.md R27) -/

/-- key[k] = 1. -/
def State.pressed (s : State) (k : Reg) : Bool := s.key.get k

/-- The least pressed key, if any is pressed (R161, D17). -/
def State.leastKey (s : State) : Option Reg := (List.finRange 16).find? s.pressed

/-! ### Taking a fault (spec/60_exceptions.md)

There is no return from a fault: no instruction runs after one, and only INIT leaves the halted state (R173, R179). -/

/-- What raised a fault, with the info of R170. -/
inductive FaultCause where
  /-- the offending address; R171 records it in 16 bits, which hold every address that is offending first while
  I ≤ 0xFFF (log 11) -/
  | memory (addr : Nat)
  | stackOverflow
  | stackUnderflow
  | unknownOpcode
  /-- the value of Vx -/
  | keyIndex (v : Byte)
deriving DecidableEq, Repr

/-- The record of a cause at a fetch address (R171). -/
def FaultCause.record (c : FaultCause) (pc : Word) (opcode : Option Word) : FaultRecord :=
  match c with
  | .memory a => ⟨.memoryFault, pc, opcode, some (BitVec.ofNat 16 a), none⟩
  | .stackOverflow => ⟨.stackOverflow, pc, opcode, none, none⟩
  | .stackUnderflow => ⟨.stackUnderflow, pc, opcode, none, none⟩
  | .unknownOpcode => ⟨.unknownOpcode, pc, opcode, none, none⟩
  | .keyIndex v => ⟨.keyIndexFault, pc, opcode, none, some v⟩

/-- The cause codes of R170 (D32). -/
def FaultKind.code : FaultKind → Nat
  | .memoryFault => 1
  | .stackOverflow => 2
  | .stackUnderflow => 3
  | .unknownOpcode => 4
  | .keyIndexFault => 5

/-- TAKING A FAULT, the one shared operation: the state at the start of the step, with the fault recorded and nothing else
changed (R172, R178). `s` is that state, with PC at the fetch address. -/
def State.takeFault (s : State) (opcode : Option Word) (c : FaultCause) : State :=
  { s with fault := some (c.record s.pc opcode) }

/-- An instruction raises a fault: a next state, with the instruction's own word as the opcode (R171, R172; log 8, log 9). -/
def raise (i : Instr) (c : FaultCause) (s : State) : Result := .next (s.takeFault (some (encode i)) c)

/-! ### Fetch (spec/30_encoding.md R90, R91) -/

/-- The fetch: the word at PC, high byte first (R60), or the first address of the two that fails CheckRead (R91). -/
def fetch (s : State) : Except Nat Word :=
  match firstBad readOk s.pc.toNat 2 with
  | none => .ok (wordOfBytes (s.mem.read s.pc.toNat) (s.mem.read (s.pc.toNat + 1)))
  | some a => .error a

/-- A STEP on the halted state changes nothing (R173). -/
def haltedStep (s : State) : Result := .next s

/-- A STEP whose fetch fails takes a MemoryFault with no opcode (R91, R171). -/
def fetchFaultStep (a : Nat) (s : State) : Result := .next (s.takeFault none (.memory a))

/-- A STEP on a word the decoder does not know takes UnknownOpcode with that word (R85, R170). -/
def unknownOpcodeStep (w : Word) (s : State) : Result := .next (s.takeFault (some w) .unknownOpcode)

/-- Store an instruction word where the next fetch reads it (R60). -/
def State.placeWord (s : State) (w : Word) : State := s.setMem (s.mem.writeBytes s.pc.toNat (bytesOfWord w))

end Sys2Proof.Machine
end

