-- ==== Sys2Proof/Machine/Flags.lean ====
section
/-! DEFINITION. The flag computations (spec/10_state.md R22): carry, no borrow, bits shifted out, and the write of a flag
into VF. The collision flag is `hit` of `Canvas` (Machine/Ops.lean). -/

namespace Sys2Proof.Machine

/-- Carry of 8XY4: the unbounded sum exceeds 255 (R130, R137). -/
def carry (a b : Byte) : Bool := decide (a.toNat + b.toNat > 255)

/-- No borrow of minuend − subtrahend: minuend ≥ subtrahend, equality included (R130, R138, R140). -/
def noBorrow (minuend subtrahend : Byte) : Bool := decide (minuend.toNat ≥ subtrahend.toNat)

/-- The bit a right shift shifts out: bit 0 (R139). -/
def lowBit (b : Byte) : Bool := b.getLsbD 0

/-- The bit a left shift shifts out: bit 7 (R141). -/
def highBit (b : Byte) : Bool := b.getLsbD 7

/-- A flag as a byte, 1 or 0. -/
def flagByte (f : Bool) : Byte := if f then 1 else 0

/-- V[0xF] <- flag (R22). -/
def State.setFlag (s : State) (f : Bool) : State := s.setReg vf (flagByte f)

end Sys2Proof.Machine
end

