-- ==== Sys2Proof/Machine/Alu.lean ====
section
/-! DEFINITION. The register loads and the ALU: 6XNN, 7XNN, 8XY0–8XY7, 8XYE and CXNN (spec/44_alu.md). Every operand is
read from the state before any write (R11), and the flag is written last, so that it wins when x = 0xF (R211, D14). -/

namespace Sys2Proof.Machine

/-- The shared form of an instruction that writes Vx and no flag. -/
def finishReg (x : Reg) (b : Byte) (s : State) : Result := .next (s.advance.setReg x b)

/-- The shared form of an instruction that writes Vx and then VF. -/
def finishRegFlag (x : Reg) (b : Byte) (f : Bool) (s : State) : Result := .next ((s.advance.setReg x b).setFlag f)

/-- LD Vx, nn (R131). -/
def execLdImm (x : Reg) (nn : Byte) (s : State) : Result := finishReg x nn s

/-- ADD Vx, nn (R132). -/
def execAddImm (x : Reg) (nn : Byte) (s : State) : Result := finishReg x (s.reg x + nn) s

/-- LD Vx, Vy (R133). -/
def execLdReg (x y : Reg) (s : State) : Result := finishReg x (s.reg y) s

/-- OR Vx, Vy (R134). -/
def execOr (x y : Reg) (s : State) : Result := finishReg x (s.reg x ||| s.reg y) s

/-- AND Vx, Vy (R135). -/
def execAnd (x y : Reg) (s : State) : Result := finishReg x (s.reg x &&& s.reg y) s

/-- XOR Vx, Vy (R136). -/
def execXor (x y : Reg) (s : State) : Result := finishReg x (s.reg x ^^^ s.reg y) s

/-- ADD Vx, Vy (R137). -/
def execAddReg (x y : Reg) (s : State) : Result :=
  finishRegFlag x (s.reg x + s.reg y) (carry (s.reg x) (s.reg y)) s

/-- SUB Vx, Vy (R138). -/
def execSub (x y : Reg) (s : State) : Result :=
  finishRegFlag x (s.reg x - s.reg y) (noBorrow (s.reg x) (s.reg y)) s

/-- SHR Vx (R139); the Y field is ignored (R87). -/
def execShr (x _y : Reg) (s : State) : Result := finishRegFlag x (s.reg x >>> 1) (lowBit (s.reg x)) s

/-- SUBN Vx, Vy (R140). -/
def execSubn (x y : Reg) (s : State) : Result :=
  finishRegFlag x (s.reg y - s.reg x) (noBorrow (s.reg y) (s.reg x)) s

/-- SHL Vx (R141); the Y field is ignored (R87). -/
def execShl (x _y : Reg) (s : State) : Result := finishRegFlag x (s.reg x <<< 1) (highBit (s.reg x)) s

/-- RND Vx, nn for a given random input r (R142). -/
def rndWith (r : Byte) (x : Reg) (nn : Byte) (s : State) : Result := finishReg x (r &&& nn) s.nextDraw

/-- RND Vx, nn (R142): r is the free value of this draw (R143, log 2). -/
def execRnd (x : Reg) (nn : Byte) (s : State) : Result := rndWith (Config.randomByte s.draws) x nn s

end Sys2Proof.Machine
end

