-- ==== Sys2Proof/Machine/Operands.lean ====
section
/-! DEFINITION. The operand forms: 12-bit addresses, register-indirect addresses through I (spec/45_index_memory.md), key
indexes (spec/43_skips.md R126), sprite coordinates (R101), font addresses (R152), BCD digits (R153), the index sum (R151). -/

namespace Sys2Proof.Machine

/-- NNN as a 16-bit address, zero-extended (R82). -/
def address (nnn : BitVec 12) : Word := nnn.zeroExtend 16

/-- The effective address of register-indirect through I at offset 0, unbounded (spec/45_index_memory.md, R52). -/
def State.ea (s : State) : Nat := s.i.toNat

/-- KeyIndex of R126 for a given value of KEY_INDEX_OOR; `none` raises KeyIndexFault. -/
def keyIndexWith (p : KeyIndexPolicy) (b : Byte) : Option Reg :=
  if h : b.toNat < 16 then some ⟨b.toNat, h⟩
  else
    match p with
    | .lowNibble => some (b.extractLsb' 0 4).toFin
    | .fault => none

/-- KeyIndex of R126. -/
def keyIndex (b : Byte) : Option Reg := keyIndexWith Config.keyIndexOor b

/-- The column of a sprite: Vx mod 64 (R101). -/
def spriteX (b : Byte) : Nat := b.toNat % 64

/-- The top row of a sprite: Vy mod 32 (R101). -/
def spriteY (b : Byte) : Nat := b.toNat % 32

/-- The address of the glyph of the low nibble of Vx: FONT_BASE + 5 · (Vx AND 0x0F) (R152). -/
def glyphAddress (b : Byte) : Word := BitVec.ofNat 16 (fontBase + 5 * (b &&& 0x0F).toNat)

/-- The hundreds, tens and ones digits of a byte (R153). -/
def bcdDigits (b : Byte) : List Byte :=
  [BitVec.ofNat 8 (b.toNat / 100), BitVec.ofNat 8 (b.toNat / 10 % 10), BitVec.ofNat 8 (b.toNat % 10)]

/-- I + Vx of R151 for a given value of FX1E_OVERFLOW: the new I, or the sum that raises MemoryFault. -/
def indexSumWith (p : OverflowPolicy) (w : Word) (b : Byte) : Except Nat Word :=
  let sum := w.toNat + b.toNat
  if sum ≤ Config.addrMax then .ok (BitVec.ofNat 16 sum)
  else
    match p with
    | .wrap12 => .ok (BitVec.ofNat 16 (sum % 0x1000))
    | .fault => .error sum

/-- I + Vx of R151. -/
def indexSum (w : Word) (b : Byte) : Except Nat Word := indexSumWith Config.fx1eOverflow w b

end Sys2Proof.Machine
end

