-- ==== Sys2Proof/Machine/Control.lean ====
section
/-! DEFINITION. The control transfers 00EE, 1NNN, 2NNN and BNNN (spec/42_control_flow.md). -/

namespace Sys2Proof.Machine

/-- RET (R110). -/
def execRet (s : State) : Result :=
  if s.sp = 0 then raise .ret .stackUnderflow s else .next (s.drop.setPc s.top)

/-- JP (R111). -/
def execJp (nnn : BitVec 12) (s : State) : Result := .next (s.setPc (address nnn))

/-- CALL (R112): the pushed address is the one after the CALL. -/
def execCall (nnn : BitVec 12) (s : State) : Result :=
  if s.sp = 16 then raise (.call nnn) .stackOverflow s
  else .next ((s.push s.advance.pc).setPc (address nnn))

/-- JP V0 (R113): the 16-bit sum, not masked. -/
def execJpV0 (nnn : BitVec 12) (s : State) : Result := .next (s.setPc ((s.reg 0).zeroExtend 16 + address nnn))

end Sys2Proof.Machine
end

