-- ==== Sys2Proof/Machine/Display.lean ====
section
/-! DEFINITION. The display instructions 00E0 and DXYN (spec/41_display.md). -/

namespace Sys2Proof.Machine

/-- CLS (R100). -/
def execCls (s : State) : Result := .next (s.advance.setFrame Frame.blank)

/-- The sprite of DXYN drawn on the framebuffer (R101): coordinates and sprite bytes as they stand before any write. -/
def State.drawSprite (s : State) (x y : Reg) (n : Nat) : Canvas :=
  Canvas.drawRows (spriteX (s.reg x)) (spriteY (s.reg y)) 0 { fb := s.fb, hit := false } (s.mem.readBytes s.ea n)

/-- DRW (R101): a sprite byte above 0xFFF faults with nothing drawn, else the sprite is drawn and VF is the collision. -/
def execDrw (x y : Reg) (n : Fin 16) (s : State) : Result :=
  match firstBad readOk s.ea n with
  | some a => raise (.drw x y n) (.memory a) s
  | none =>
    let c := s.drawSprite x y n
    .next ((s.advance.setFrame c.fb).setFlag c.hit)

end Sys2Proof.Machine
end

