-- ==== Sys2Proof/Machine/IndexMemory.lean ====
section
/-! DEFINITION. The index register and memory instructions ANNN, FX1E, FX29, FX33, FX55 and FX65
(spec/45_index_memory.md). -/

namespace Sys2Proof.Machine

/-- LD I, nnn (R150). -/
def execLdI (nnn : BitVec 12) (s : State) : Result := .next (s.advance.setI (address nnn))

/-- ADD I, Vx for a given value of FX1E_OVERFLOW (R151). -/
def addIWith (p : OverflowPolicy) (x : Reg) (s : State) : Result :=
  match indexSumWith p s.i (s.reg x) with
  | .ok w => .next (s.advance.setI w)
  | .error a => raise (.addI x) (.memory a) s

/-- ADD I, Vx (R151). -/
def execAddI (x : Reg) (s : State) : Result := addIWith Config.fx1eOverflow x s

/-- LD F, Vx (R152). -/
def execLdF (x : Reg) (s : State) : Result := .next (s.advance.setI (glyphAddress (s.reg x)))

/-- The shared form of a store of bytes at I (R153, R154), for a given value of RESERVED_WRITE_FAULT: the first address
that fails CheckWrite faults with nothing written, else every byte is written. -/
def storeAtIWith (reserved : Bool) (i : Instr) (bs : List Byte) (s : State) : Result :=
  match firstBad (writeOkWith reserved) s.ea bs.length with
  | some a => raise i (.memory a) s
  | none => .next (s.advance.setMem (s.mem.writeBytes s.ea bs))

/-- LD B, Vx (R153). -/
def execLdB (x : Reg) (s : State) : Result := storeAtIWith reservedWriteFault (.ldB x) (bcdDigits (s.reg x)) s

/-- LD [I], Vx (R154). -/
def execLdStore (x : Reg) (s : State) : Result := storeAtIWith reservedWriteFault (.ldStore x) (s.regsUpTo x) s

/-- LD Vx, [I] (R155). -/
def execLdLoad (x : Reg) (s : State) : Result :=
  match firstBad readOk s.ea (x.val + 1) with
  | some a => raise (.ldLoad x) (.memory a) s
  | none => .next (s.advance.setRegsUpTo x fun k => s.mem.read (s.ea + k))

end Sys2Proof.Machine
end

