-- ==== Sys2Proof/Machine/Skips.lean ====
section
/-! DEFINITION. The conditional skips 3XNN, 4XNN, 5XY0, 9XY0, EX9E and EXA1 (spec/43_skips.md). -/

namespace Sys2Proof.Machine

/-- The shared form of every skip: advance, then Skip(c) (R92, R93). -/
def finishSkip (c : Bool) (s : State) : Result := .next (s.advance.skipIf c)

/-- SE Vx, nn (R120). -/
def execSeImm (x : Reg) (nn : Byte) (s : State) : Result := finishSkip (s.reg x == nn) s

/-- SNE Vx, nn (R121). -/
def execSneImm (x : Reg) (nn : Byte) (s : State) : Result := finishSkip (s.reg x != nn) s

/-- SE Vx, Vy (R122). -/
def execSeReg (x y : Reg) (s : State) : Result := finishSkip (s.reg x == s.reg y) s

/-- SNE Vx, Vy (R123). -/
def execSneReg (x y : Reg) (s : State) : Result := finishSkip (s.reg x != s.reg y) s

/-- The shared form of the key skips: skip if the key Vx has the wanted level, or KeyIndexFault (R126). -/
def finishKeySkip (i : Instr) (x : Reg) (wanted : Bool) (s : State) : Result :=
  match keyIndex (s.reg x) with
  | none => raise i (.keyIndex (s.reg x)) s
  | some k => finishSkip (s.pressed k == wanted) s

/-- SKP Vx (R124). -/
def execSkp (x : Reg) (s : State) : Result := finishKeySkip (.skp x) x true s

/-- SKNP Vx (R125). -/
def execSknp (x : Reg) (s : State) : Result := finishKeySkip (.sknp x) x false s

end Sys2Proof.Machine
end

