-- ==== Sys2Proof/Machine/TimersKeys.lean ====
section
/-! DEFINITION. The timer and key-wait instructions FX07, FX0A, FX15 and FX18 (spec/46_timers_keys.md). -/

namespace Sys2Proof.Machine

/-- LD Vx, DT (R160). -/
def execLdVxDt (x : Reg) (s : State) : Result := .next (s.advance.setReg x s.dt)

/-- LD Vx, K (R161): the least pressed key, or the waiting step, which leaves every element as it was, PC included. -/
def execLdVxK (x : Reg) (s : State) : Result :=
  match s.leastKey with
  | some k => .next (s.advance.setReg x (BitVec.ofNat 8 k.val))
  | none => .next s

/-- LD DT, Vx (R162). -/
def execLdDt (x : Reg) (s : State) : Result := .next (s.advance.setDt (s.reg x))

/-- LD ST, Vx (R163). -/
def execLdSt (x : Reg) (s : State) : Result := .next (s.advance.setSt (s.reg x))

end Sys2Proof.Machine
end

