-- ==== Sys2Proof/Machine/Step.lean ====
section
/-! DEFINITION. One STEP of the engine (spec/30_encoding.md R90) and the placing of an instruction where it is fetched. -/

namespace Sys2Proof.Machine

/-- STEP (R90), with the priority of R174: an existing fault, then the fetch, then the decoder, then the instruction. -/
def step (s : State) : Host.Outcome State Fault Refusal :=
  match s.fault with
  | some _ => haltedStep s
  | none =>
    match fetch s with
    | .error a => fetchFaultStep a s
    | .ok w =>
      match decodeWord w with
      | none => unknownOpcodeStep w s
      | some i => exec i s

/-- The state with an opcode-table word placed where the next STEP fetches, and what that fetch needs: no recorded fault
(R173), and a PC that a fetch can read (R91), which a PC above 0xFFE is not and is set to 0x200 (log 10). -/
def State.withFetchWord (s : State) (nbits w : Nat) : State :=
  let r := { s with fault := none, pc := if s.pc.toNat < Config.addrMax then s.pc else BitVec.ofNat 16 Config.progStart }
  r.placeWord (tableWord nbits w)

end Sys2Proof.Machine
end

