-- ==== Sys2Proof/Machine/Transactions.lean ====
section
/-! DEFINITION. The CORE's interface (spec/10_state.md R40): the six atomic transactions, what each returns, the outputs
of R41 and the runs of R68, in which the transactions come in any order. -/

namespace Sys2Proof.Machine

/-- INIT (R200): every element of R42 takes its reset value, whatever it was. The model's own counter of random inputs
goes on, so that no run repeats its random bytes after an INIT (log 2). -/
def State.initialize (s : State) : State := { State.reset with draws := s.draws }

/-- What LOAD returns (R58, R175). -/
inductive LoadResult where
  | ok
  | romTooLarge
deriving DecidableEq, Repr

/-- LOAD(rom) (R58): exactly the ROM's bytes from 0x200 on, or RomTooLarge with nothing changed. -/
def State.load (s : State) (rom : List Byte) : State × LoadResult :=
  if rom.length > Config.romMax then (s, .romTooLarge)
  else (s.setMem (s.mem.writeBytes Config.progStart rom), .ok)

/-- A timer one tick later, never below zero (R182). -/
def countDown (b : Byte) : Byte := if b = 0 then 0 else b - 1

/-- TICK (R182). -/
def State.tick (s : State) : State := { s with dt := countDown s.dt, st := countDown s.st }

/-- What TICK returns: it takes ST from 1 to 0 (R182, R184). -/
def State.toneTrigger (s : State) : Bool := s.st == 1

/-- KEYSET(k, b) (R186). -/
def State.keyset (s : State) (k : Reg) (b : Bool) : State := { s with key := s.key.set k b }

/-- REDRAW_ACK (R188). -/
def State.redrawAck (s : State) : State := { s with redraw := false }

/-- tone_active, the level output (R183). -/
def State.toneActive (s : State) : Bool := s.st != 0

/-- The four continuously readable outputs of R41. -/
structure Outputs where
  fb : Frame
  redraw : Bool
  toneActive : Bool
  fault : Option FaultRecord
deriving DecidableEq, Repr

/-- The outputs of a state (R41). -/
def State.outputs (s : State) : Outputs := ⟨s.fb, s.redraw, s.toneActive, s.fault⟩

/-- The status a STEP returns (R30). -/
inductive StepStatus where
  | executed
  | waitingForKey
  | faulted (r : FaultRecord)
deriving DecidableEq, Repr

/-- The key wait, FX0A (R161). -/
def isKeyWait : Instr → Bool
  | .ldVxK _ => true
  | _ => false

/-- The next instruction is FX0A and no key is pressed (R161, R189). -/
def State.waits (s : State) : Bool :=
  match fetch s with
  | .ok w => (decodeWord w).any isKeyWait && s.leastKey.isNone
  | .error _ => false

/-- The state after a STEP. `step` always answers a next state on this hardware (log 8). -/
def State.afterStep (s : State) : State :=
  match step s with
  | .next t => t
  | .fault _ => s
  | .refused _ => s

/-- The status of a STEP (R30, R90): the recorded fault, or the wait, or Executed (log 12). -/
def State.stepStatus (s : State) : StepStatus :=
  match s.afterStep.fault with
  | some r => .faulted r
  | none => if s.waits then .waitingForKey else .executed

/-- The six transactions (R40). The random input of STEP is the free value of log 2. -/
inductive Transaction where
  | init
  | load (rom : List Byte)
  | step
  | tick
  | keyset (k : Reg) (b : Bool)
  | redrawAck
deriving DecidableEq, Repr

/-- What a transaction returns (R40). -/
inductive Reply where
  | done
  | loaded (r : LoadResult)
  | stepped (status : StepStatus) (redraw : Bool)
  | ticked (toneTrigger : Bool)
deriving DecidableEq, Repr

/-- One transaction: the state after it and what it returns (R40). STEP returns the redraw flag after the step (R34). -/
def transact (t : Transaction) (s : State) : State × Reply :=
  match t with
  | .init => (s.initialize, .done)
  | .load rom => ((s.load rom).1, .loaded (s.load rom).2)
  | .step => (s.afterStep, .stepped s.stepStatus s.afterStep.redraw)
  | .tick => (s.tick, .ticked s.toneTrigger)
  | .keyset k b => (s.keyset k b, .done)
  | .redrawAck => (s.redrawAck, .done)

/-- An execution: a total order of transactions, each reading the state the one before left (R68). -/
def runTransactions (s : State) : List Transaction → State
  | [] => s
  | t :: ts => runTransactions (transact t s).1 ts

/-- The launch state of a run on a ROM: LOAD after INIT (R204). -/
def launch (rom : List Byte) : State := (State.reset.load rom).1

end Sys2Proof.Machine
end

