-- ==== Sys2Proof/Safety.lean ====
section
/-! DEFINITION. The terms the statements use: the invariant of every reachable state, a well-shaped fault record, the
pixels a sprite touches, the accesses that pass their checks, the instructions that may change VF, a parked program. -/

namespace Sys2Proof.Machine

/-- A fault record as R170 and R171 say: an address exactly for a MemoryFault and a key exactly for a KeyIndexFault, no
opcode only for a MemoryFault, addresses at most 0x10FE, a key above 0xF. -/
structure FaultRecord.Shaped (r : FaultRecord) : Prop where
  addr : r.addr.isSome = true ↔ r.kind = .memoryFault
  key : r.key.isSome = true ↔ r.kind = .keyIndexFault
  opcode : r.opcode = none → r.kind = .memoryFault
  pcBound : r.pc.toNat ≤ 0x10FE
  addrBound : ∀ a, r.addr = some a → a.toNat ≤ 0x10FE
  keyBound : ∀ b, r.key = some b → 0xF < b.toNat

/-- What holds in every state reachable from reset by transactions (R36, with the bounds of R24, R110, R112, R113, R170
and the memory's canonical form). -/
structure State.Inv (s : State) : Prop where
  /-- the memory list is canonical -/
  memWf : s.mem.wf
  /-- nothing is listed outside 0x000–0xFFF (R50) -/
  memInBank : s.mem.inBank
  /-- 0x000–0x1FF holds the reset image (R36) -/
  reserved : reservedWriteFault = true → ∀ a < 0x200, s.mem.read a = resetByte a
  /-- I ≤ 0x0FFF (R23, R36) -/
  index : s.i.toNat ≤ 0xFFF
  /-- no jump, call, return or skip leads above 0x10FE (R113) -/
  pcBound : s.pc.toNat ≤ 0x10FE
  /-- every return address is at most 0x1000 (R112) -/
  stackBound : ∀ k : Fin 16, (s.stack.get k).toNat ≤ 0x1000
  /-- a recorded fault is well shaped (R171) -/
  faultShape : ∀ r, s.fault = some r → r.Shaped

/-- DXYN's sprite has a set bit that is drawn on pixel (px, py) (R101, R102): some row and column of the sprite whose
bit 7 − column is 1 lands there, with wraparound. -/
def SpriteTouches (s : State) (x y : Reg) (n : Nat) (px : Fin 64) (py : Fin 32) : Prop :=
  ∃ row col, row < n ∧ col < 8 ∧ (s.mem.read (s.i.toNat + row)).getLsbD (7 - col) = true ∧
    px.val = ((s.reg x).toNat % 64 + col) % 64 ∧ py.val = ((s.reg y).toNat % 32 + row) % 32

/-- A parked program (R206): no fault, and the word at PC is a jump to its own address. -/
def State.Parked (s : State) : Prop :=
  s.fault = none ∧ ∃ nnn : BitVec 12, nnn.toNat = s.pc.toNat ∧ fetch s = .ok (encode (.jp nnn))

/-- The instructions that may change VF (R22): the flag writers, whatever their X, and those whose named destination is
VF. -/
def writesVF : Instr → Bool
  | .addReg _ _ | .sub _ _ | .shr _ _ | .subn _ _ | .shl _ _ | .drw _ _ _ => true
  | .ldImm x _ | .addImm x _ | .ldReg x _ | .or x _ | .and x _ | .xor x _ | .rnd x _ => x == 15
  | .ldVxDt x | .ldVxK x | .ldLoad x => x == 15
  | .cls | .ret | .jp _ | .call _ | .seImm _ _ | .sneImm _ _ | .seReg _ _ | .sneReg _ _ => false
  | .ldI _ | .jpV0 _ | .skp _ | .sknp _ | .ldDt _ | .ldSt _ | .addI _ | .ldF _ | .ldB _ | .ldStore _ => false

/-- The address can be read (R52). -/
def Readable (a : Nat) : Prop := a ≤ 0xFFF

/-- The address can be written (R52). -/
def Writable (a : Nat) : Prop := a ≤ 0xFFF ∧ (reservedWriteFault = true → 0x200 ≤ a)

end Sys2Proof.Machine
end

