-- ==== Sys2Proof/Certificates/Slice0/Obligations.lean ====
section
/-! DEFINITION. The statements about the machine, from the numbered rules of spec/. A frame is said by the next state itself:
`exec i s = .next { s with … }` leaves every field not named as it was, memory among them. -/

open Sys2Proof Sys2Proof.Machine

/-! ### Encoding -/

/-- Decoding the bytes of any instruction gives it back, with the bytes after it, and a word decodes to an instruction only
if it is that instruction's word (R80–R84). -/
def Obligations.DecodeOfEncodeGivesTheInstruction : Prop :=
  (∀ (i : Instr) (rest : List Byte), decode (encodeBytes i ++ rest) = .ok (i, rest)) ∧
  (∀ (i : Instr) (w : Word), decodeWord w = some i → encode i = w)

/-- The decoder knows a word exactly if a row of the opcode table accepts it (R83, R85; the table is written apart from the
decoder). -/
def Obligations.DecoderKnowsExactlyTheTableWords : Prop :=
  ∀ w : Word, (decodeWord w).isSome = wordWellFormed w

/-- The illegal words are those R85 lists, by major opcode and minor opcode (R85 is the spec's own inference from R83). -/
def Obligations.IllegalWordsAreThoseListed : Prop :=
  ∀ w : Word, decodeWord w = none ↔
    (w.toNat ≤ 0x0FFF ∧ w ≠ 0x00E0 ∧ w ≠ 0x00EE) ∨
    ((w.toNat / 0x1000 = 0x5 ∨ w.toNat / 0x1000 = 0x9) ∧ w.toNat % 0x10 ≠ 0) ∨
    (w.toNat / 0x1000 = 0x8 ∧ w.toNat % 0x10 ∈ [0x8, 0x9, 0xA, 0xB, 0xC, 0xD, 0xF]) ∨
    (w.toNat / 0x1000 = 0xE ∧ w.toNat % 0x100 ∉ [0x9E, 0xA1]) ∨
    (w.toNat / 0x1000 = 0xF ∧ w.toNat % 0x100 ∉ [0x07, 0x0A, 0x15, 0x18, 0x1E, 0x29, 0x33, 0x55, 0x65])

/-- A few words written out bit by bit from the encodings of the rules decode to the instructions they stand for. -/
def Obligations.WordsWrittenFromTheSpecDecode : Prop :=
  decodeWord 0b1101_0001_0010_0101 = some (.drw 1 2 5) ∧
  decodeWord 0b0010_0010_0000_0110 = some (.call 0x206) ∧
  decodeWord 0b0011_0011_0100_0010 = some (.seImm 3 0x42) ∧
  decodeWord 0b1000_0001_0010_0101 = some (.sub 1 2) ∧
  decodeWord 0b1111_0010_0101_0101 = some (.ldStore 2) ∧
  decodeWord 0b1111_0101_0000_1010 = some (.ldVxK 5) ∧
  decodeWord 0b1001_1001_1001_1001 = none

/-! ### Fetch, step and faults -/

/-- When the bytes at PC decode to an instruction, STEP is exec of it (R90, R92; that no
alignment is asked of PC, R63, is the spec's decision D5). -/
def Obligations.StepRunsTheDecodedInstruction : Prop :=
  ∀ (i : Instr) (s : State), s.fault = none → s.pc.toNat ≤ 0xFFE →
    decodeWord (wordOfBytes (s.mem.read s.pc.toNat) (s.mem.read (s.pc.toNat + 1))) = some i →
    step s = exec i s

/-- A fetch reads two consecutive bytes at PC, and the byte at the lower address is bits 15–8 of the opcode (R60). -/
def Obligations.FetchIsBigEndian : Prop :=
  ∀ s : State, s.pc.toNat ≤ 0xFFE →
    ∃ op : Word, fetch s = .ok op ∧ op.extractLsb' 8 8 = s.mem.read s.pc.toNat ∧
      op.extractLsb' 0 8 = s.mem.read (s.pc.toNat + 1)

/-- A fetch at 0xFFF faults at 0x1000, and one at 0x1000 or above at PC; the record has no opcode (R91; the address is the
spec's decision D22, the record its decision D19). -/
def Obligations.FetchOutsideTheBankFaults : Prop :=
  ∀ s : State, s.fault = none →
    (s.pc.toNat = 0xFFF →
      step s = .next { s with fault := some ⟨.memoryFault, s.pc, none, some 0x1000, none⟩ }) ∧
    (0x1000 ≤ s.pc.toNat →
      step s = .next { s with fault := some ⟨.memoryFault, s.pc, none, some s.pc, none⟩ })

/-- A STEP on a word that is no instruction halts with UnknownOpcode and that word (R85; the record is the spec's decision
D19). -/
def Obligations.UnknownWordHaltsTheMachine : Prop :=
  ∀ (s : State) (w : Word), s.fault = none → fetch s = .ok w → decodeWord w = none →
    step s = .next { s with fault := some ⟨.unknownOpcode, s.pc, some w, none, none⟩ }

/-- While a fault is recorded a STEP changes nothing and reports it, every transaction but INIT keeps it, and INIT clears it
(R173, the spec's decision D20). -/
def Obligations.FaultIsStickyUntilInit : Prop :=
  ∀ (s : State) (r : FaultRecord), s.fault = some r →
    step s = .next s ∧ s.stepStatus = .faulted r ∧
    (∀ tr : Transaction, tr ≠ .init → (transact tr s).1.fault = some r) ∧
    (transact .init s).1.fault = none

/-- A step that takes a fault leaves every element as it was but the fault status; the record holds the fetch address, and
the fetched word, or no opcode for a fault of the fetch itself (R171, R172, the spec's decision D19). -/
def Obligations.FaultsArePrecise : Prop :=
  ∀ (s t : State) (r : FaultRecord), s.fault = none → step s = .next t → t.fault = some r →
    t = { s with fault := some r } ∧ r.pc = s.pc ∧ s.stepStatus = .faulted r ∧
    (∀ w, fetch s = .ok w → r.opcode = some w) ∧
    (∀ a, fetch s = .error a → r.kind = .memoryFault ∧ r.opcode = none)

/-- The machine never stops outside the spec's own halted state: every STEP, and every instruction in every state, answers
a next state (R90, R172, R173; log 8). -/
def Obligations.StepAlwaysAnswersNext : Prop :=
  (∀ s : State, ∃ t, step s = .next t) ∧ ∀ (i : Instr) (s : State), ∃ t, exec i s = .next t

/-- Which instruction can raise which fault (R170, R174; KeyIndexFault and FX1E's MemoryFault are the spec's decisions D16
and D15). -/
def Obligations.EachFaultKindHasItsInstructions : Prop :=
  ∀ (i : Instr) (s t : State) (r : FaultRecord), s.fault = none → exec i s = .next t → t.fault = some r →
    match r.kind with
    | .memoryFault => (∃ x y n, i = .drw x y n) ∨ ∃ x, i = .addI x ∨ i = .ldB x ∨ i = .ldStore x ∨ i = .ldLoad x
    | .stackOverflow => ∃ nnn, i = .call nnn
    | .stackUnderflow => i = .ret
    | .unknownOpcode => False
    | .keyIndexFault => ∃ x, i = .skp x ∨ i = .sknp x

/-! ### Display -/

/-- 00E0 turns every pixel off and sets redraw; it changes nothing else but PC (R100). -/
def Obligations.ClsClearsTheFramebuffer : Prop :=
  ∀ s : State, decodeWord 0x00E0 = some .cls ∧
    ∃ fb, exec .cls s = .next { s with pc := s.pc + 2, fb := fb, redraw := true } ∧
      ∀ px py, Frame.get fb px py = false

/-- DXYN inverts exactly the pixels a 1 bit of the sprite lands on, with wraparound; VF is 1 if one of them was on, else 0;
redraw is set; nothing else changes but PC. For n = 0 no pixel is touched (R101; the bit order is R102, PRESUMED, log 7;
n = 0 is the spec's decision D11). -/
def Obligations.DrwXorsTheSpriteAndSetsCollision : Prop :=
  ∀ (x y : Reg) (n : Fin 16) (s : State), (∀ row < n.val, Readable (s.ea + row)) →
    decodeWord (wordXYN 0xD x y n) = some (.drw x y n) ∧
    ∃ v fb, exec (.drw x y n) s = .next { s with pc := s.pc + 2, v := v, fb := fb, redraw := true } ∧
      (∀ px py, SpriteTouches s x y n px py → Frame.get fb px py = !s.fb.get px py) ∧
      (∀ px py, ¬ SpriteTouches s x y n px py → Frame.get fb px py = s.fb.get px py) ∧
      ((∃ px py, SpriteTouches s x y n px py ∧ s.fb.get px py = true) → v.get 15 = 1) ∧
      ((¬ ∃ px py, SpriteTouches s x y n px py ∧ s.fb.get px py = true) → v.get 15 = 0) ∧
      ∀ r, r ≠ 15 → v.get r = s.reg r

/-- DXYN and FX65 fault at the lowest address of their reads that is above 0xFFF, with nothing written (R101, R155, R174;
the record and the address are the spec's decisions D19 and D22). -/
def Obligations.ReadsFaultAtTheLowestAddress : Prop :=
  ∀ (x y : Reg) (n : Fin 16) (s : State) (k : Nat),
    (∀ j < k, Readable (s.ea + j)) → ¬ Readable (s.ea + k) →
    (k < n.val → exec (.drw x y n) s = .next { s with
      fault := some ⟨.memoryFault, s.pc, some (wordXYN 0xD x y n), some (BitVec.ofNat 16 (s.ea + k)), none⟩ }) ∧
    (k ≤ x.val → exec (.ldLoad x) s = .next { s with
      fault := some ⟨.memoryFault, s.pc, some (wordXNN 0xF x 0x65), some (BitVec.ofNat 16 (s.ea + k)), none⟩ })

/-- FX33 and FX55 fault at the lowest address of their writes that is above 0xFFF, or below 0x200 while
RESERVED_WRITE_FAULT is true, with nothing written (R153, R154, R174; the spec's decisions D7, D19 and D22). -/
def Obligations.WritesFaultAtTheLowestAddress : Prop :=
  ∀ (x : Reg) (s : State) (k : Nat),
    (∀ j < k, Writable (s.ea + j)) → ¬ Writable (s.ea + k) →
    (k < 3 → exec (.ldB x) s = .next { s with
      fault := some ⟨.memoryFault, s.pc, some (wordXNN 0xF x 0x33), some (BitVec.ofNat 16 (s.ea + k)), none⟩ }) ∧
    (k ≤ x.val → exec (.ldStore x) s = .next { s with
      fault := some ⟨.memoryFault, s.pc, some (wordXNN 0xF x 0x55), some (BitVec.ofNat 16 (s.ea + k)), none⟩ })

/-! ### Control transfer -/

/-- 00EE pops the top entry into PC, and the entry keeps its value; on an empty stack it raises StackUnderflow and nothing
else changes (R110). -/
def Obligations.RetPopsTheStack : Prop :=
  ∀ s : State, decodeWord 0x00EE = some .ret ∧
    (∀ k : Fin 16, s.sp = k.succ → exec .ret s = .next { s with pc := s.stack.get k, sp := k.castSucc }) ∧
    (s.sp = 0 → ∃ r, exec .ret s = .next { s with fault := some r } ∧ r.kind = .stackUnderflow)

/-- 1NNN sets PC to NNN and changes nothing else (R111). -/
def Obligations.JpSetsThePc : Prop :=
  ∀ (nnn : BitVec 12) (s : State), decodeWord (wordNNN 0x1 nnn) = some (.jp nnn) ∧
    ∃ p : Word, p.toNat = nnn.toNat ∧ exec (.jp nnn) s = .next { s with pc := p }

/-- 2NNN pushes the address after the CALL and sets PC to NNN; on a full stack it raises StackOverflow and nothing else
changes (R112). -/
def Obligations.CallPushesTheReturnAddress : Prop :=
  ∀ (nnn : BitVec 12) (s : State), decodeWord (wordNNN 0x2 nnn) = some (.call nnn) ∧
    (∀ k : Fin 16, s.sp = k.castSucc →
      ∃ (p : Word) (stack : Vector Word 16), p.toNat = nnn.toNat ∧
        exec (.call nnn) s = .next { s with pc := p, sp := k.succ, stack := stack } ∧
        ∀ j, stack.get j = if j = k then s.pc + 2 else s.stack.get j) ∧
    (s.sp = 16 → ∃ r, exec (.call nnn) s = .next { s with fault := some r } ∧ r.kind = .stackOverflow)

/-- BNNN sets PC to V0 + NNN, not masked to 12 bits, and changes nothing else (R113, the spec's decision D6). -/
def Obligations.JpV0AddsV0 : Prop :=
  ∀ (nnn : BitVec 12) (s : State), decodeWord (wordNNN 0xB nnn) = some (.jpV0 nnn) ∧
    ∃ p : Word, p.toNat = (s.reg 0).toNat + nnn.toNat ∧ exec (.jpV0 nnn) s = .next { s with pc := p }

/-! ### Skips -/

/-- 3XNN skips if Vx = NN, 4XNN if Vx ≠ NN; neither changes anything but PC (R120, R121; the two bytes of a skip, R93, are
the spec's own inference). -/
def Obligations.ImmediateSkipsCompareWithNN : Prop :=
  ∀ (x : Reg) (nn : Byte) (s : State),
    decodeWord (wordXNN 0x3 x nn) = some (.seImm x nn) ∧ decodeWord (wordXNN 0x4 x nn) = some (.sneImm x nn) ∧
    exec (.seImm x nn) s = .next { s with pc := if s.reg x = nn then s.pc + 4 else s.pc + 2 } ∧
    exec (.sneImm x nn) s = .next { s with pc := if s.reg x = nn then s.pc + 2 else s.pc + 4 }

/-- 5XY0 skips if Vx = Vy, 9XY0 if Vx ≠ Vy; neither changes anything but PC; the words with other low bits are no
instructions, and a STEP on one takes UnknownOpcode with nothing else changed (R122, R123; that such a word is illegal, R85,
and the two bytes of a skip, R93, are the spec's own inferences; that the fault changes nothing else, R172, is its decision
D19, log 8, log 13). -/
def Obligations.RegisterSkipsCompareRegisters : Prop :=
  ∀ (x y : Reg) (s : State),
    decodeWord (wordXYN 0x5 x y 0) = some (.seReg x y) ∧ decodeWord (wordXYN 0x9 x y 0) = some (.sneReg x y) ∧
    (∀ n : Fin 16, n ≠ 0 → decodeWord (wordXYN 0x5 x y n) = none ∧ decodeWord (wordXYN 0x9 x y n) = none) ∧
    (∀ n : Fin 16, n ≠ 0 → s.fault = none → (fetch s = .ok (wordXYN 0x5 x y n) ∨ fetch s = .ok (wordXYN 0x9 x y n)) →
      ∃ r, step s = .next { s with fault := some r } ∧ r.kind = .unknownOpcode) ∧
    exec (.seReg x y) s = .next { s with pc := if s.reg x = s.reg y then s.pc + 4 else s.pc + 2 } ∧
    exec (.sneReg x y) s = .next { s with pc := if s.reg x = s.reg y then s.pc + 2 else s.pc + 4 }

/-- EX9E skips if the key Vx is pressed, EXA1 if it is not. For Vx above 0xF the OPEN parameter KEY_INDEX_OOR decides: the
key of the low nibble, or KeyIndexFault with nothing else changed (R124–R126, the spec's decision D16; log 4). -/
def Obligations.KeySkipsTestTheLatch : Prop :=
  ∀ (x : Reg) (s : State),
    decodeWord (wordXNN 0xE x 0x9E) = some (.skp x) ∧ decodeWord (wordXNN 0xE x 0xA1) = some (.sknp x) ∧
    (∀ k : Reg, (s.reg x).toNat = k.val →
      exec (.skp x) s = .next { s with pc := if s.key.get k then s.pc + 4 else s.pc + 2 } ∧
      exec (.sknp x) s = .next { s with pc := if s.key.get k then s.pc + 2 else s.pc + 4 }) ∧
    (0xF < (s.reg x).toNat →
      match Config.keyIndexOor with
      | .lowNibble => ∀ k : Reg, k.val = (s.reg x).toNat % 16 →
          exec (.skp x) s = .next { s with pc := if s.key.get k then s.pc + 4 else s.pc + 2 } ∧
          exec (.sknp x) s = .next { s with pc := if s.key.get k then s.pc + 2 else s.pc + 4 }
      | .fault =>
          exec (.skp x) s = .next { s with
            fault := some ⟨.keyIndexFault, s.pc, some (wordXNN 0xE x 0x9E), none, some (s.reg x)⟩ } ∧
          exec (.sknp x) s = .next { s with
            fault := some ⟨.keyIndexFault, s.pc, some (wordXNN 0xE x 0xA1), none, some (s.reg x)⟩ })

/-! ### Register loads and ALU -/

/-- 6XNN sets Vx to NN, 7XNN adds NN to Vx modulo 256; no flag and no other register changes (R131, R132). -/
def Obligations.ImmediateLoadAndAddWriteOnlyVx : Prop :=
  ∀ (x : Reg) (nn : Byte) (s : State),
    decodeWord (wordXNN 0x6 x nn) = some (.ldImm x nn) ∧ decodeWord (wordXNN 0x7 x nn) = some (.addImm x nn) ∧
    (∃ v, exec (.ldImm x nn) s = .next { s with pc := s.pc + 2, v := v } ∧
      ∀ r, Vector.get v r = if r = x then nn else s.reg r) ∧
    (∃ v, exec (.addImm x nn) s = .next { s with pc := s.pc + 2, v := v } ∧
      (Vector.get v x).toNat = ((s.reg x).toNat + nn.toNat) % 256 ∧ ∀ r, r ≠ x → v.get r = s.reg r)

/-- 8XY0 copies Vy to Vx; no flag and no other register changes (R133). -/
def Obligations.RegisterLoadCopiesVy : Prop :=
  ∀ (x y : Reg) (s : State), decodeWord (wordXYN 0x8 x y 0x0) = some (.ldReg x y) ∧
    ∃ v, exec (.ldReg x y) s = .next { s with pc := s.pc + 2, v := v } ∧
      ∀ r, Vector.get v r = if r = x then s.reg y else s.reg r

/-- 8XY1, 8XY2 and 8XY3 set Vx bit by bit to the OR, AND and XOR of Vx and Vy; no other register changes, VF among them
unless it is Vx (R134–R136; that VF is not reset is the spec's decision D13). -/
def Obligations.LogicOperationsActBitByBit : Prop :=
  ∀ (x y : Reg) (s : State),
    decodeWord (wordXYN 0x8 x y 0x1) = some (.or x y) ∧ decodeWord (wordXYN 0x8 x y 0x2) = some (.and x y) ∧
    decodeWord (wordXYN 0x8 x y 0x3) = some (.xor x y) ∧
    (∃ v, exec (.or x y) s = .next { s with pc := s.pc + 2, v := v } ∧ (∀ r, r ≠ x → Vector.get v r = s.reg r) ∧
      ∀ k, (Vector.get v x).getLsbD k = ((s.reg x).getLsbD k || (s.reg y).getLsbD k)) ∧
    (∃ v, exec (.and x y) s = .next { s with pc := s.pc + 2, v := v } ∧ (∀ r, r ≠ x → Vector.get v r = s.reg r) ∧
      ∀ k, (Vector.get v x).getLsbD k = ((s.reg x).getLsbD k && (s.reg y).getLsbD k)) ∧
    (∃ v, exec (.xor x y) s = .next { s with pc := s.pc + 2, v := v } ∧ (∀ r, r ≠ x → Vector.get v r = s.reg r) ∧
      ∀ k, (Vector.get v x).getLsbD k = ((s.reg x).getLsbD k ^^ (s.reg y).getLsbD k))

/-- 8XY4 sets VF to 1 if the unsigned sum exceeds 255, else 0, and Vx to the sum modulo 256 unless Vx is VF, where the
flag wins (R137; the flag's win is the spec's decision D14). -/
def Obligations.AddSetsCarry : Prop :=
  ∀ (x y : Reg) (s : State), decodeWord (wordXYN 0x8 x y 0x4) = some (.addReg x y) ∧
    ∃ v, exec (.addReg x y) s = .next { s with pc := s.pc + 2, v := v } ∧
      Vector.get v 15 = (if 255 < (s.reg x).toNat + (s.reg y).toNat then 1 else 0) ∧
      (x ≠ 15 → (v.get x).toNat = ((s.reg x).toNat + (s.reg y).toNat) % 256) ∧
      ∀ r, r ≠ x → r ≠ 15 → v.get r = s.reg r

/-- 8XY5 and 8XY7 set VF to 1 if there is no borrow, else 0, and Vx to Vx − Vy and to Vy − Vx modulo 256 unless Vx is VF,
where the flag wins (R138, R140; the flag's win is the spec's decision D14). -/
def Obligations.SubtractionsSetNoBorrow : Prop :=
  ∀ (x y : Reg) (s : State),
    decodeWord (wordXYN 0x8 x y 0x5) = some (.sub x y) ∧ decodeWord (wordXYN 0x8 x y 0x7) = some (.subn x y) ∧
    (∃ v, exec (.sub x y) s = .next { s with pc := s.pc + 2, v := v } ∧
      Vector.get v 15 = (if (s.reg y).toNat ≤ (s.reg x).toNat then 1 else 0) ∧
      (x ≠ 15 → (v.get x).toNat = (256 + (s.reg x).toNat - (s.reg y).toNat) % 256) ∧
      ∀ r, r ≠ x → r ≠ 15 → v.get r = s.reg r) ∧
    (∃ v, exec (.subn x y) s = .next { s with pc := s.pc + 2, v := v } ∧
      Vector.get v 15 = (if (s.reg x).toNat ≤ (s.reg y).toNat then 1 else 0) ∧
      (x ≠ 15 → (v.get x).toNat = (256 + (s.reg y).toNat - (s.reg x).toNat) % 256) ∧
      ∀ r, r ≠ x → r ≠ 15 → v.get r = s.reg r)

/-- 8XY6 and 8XYE shift Vx by one bit, whatever Y is, and set VF to the bit shifted out, which wins when Vx is VF
(R139, R141, R87; the flag's win is the spec's decision D14). -/
def Obligations.ShiftsSetTheBitShiftedOut : Prop :=
  ∀ (x y : Reg) (s : State),
    decodeWord (wordXYN 0x8 x y 0x6) = some (.shr x y) ∧ decodeWord (wordXYN 0x8 x y 0xE) = some (.shl x y) ∧
    (∃ v, exec (.shr x y) s = .next { s with pc := s.pc + 2, v := v } ∧
      (Vector.get v 15).toNat = (s.reg x).toNat % 2 ∧
      (x ≠ 15 → (v.get x).toNat = (s.reg x).toNat / 2) ∧ ∀ r, r ≠ x → r ≠ 15 → v.get r = s.reg r) ∧
    (∃ v, exec (.shl x y) s = .next { s with pc := s.pc + 2, v := v } ∧
      (Vector.get v 15).toNat = (s.reg x).toNat / 128 ∧
      (x ≠ 15 → (v.get x).toNat = (s.reg x).toNat * 2 % 256) ∧ ∀ r, r ≠ x → r ≠ 15 → v.get r = s.reg r)

/-- CXNN sets Vx to the random byte of the draw AND NN; no flag and no other register changes. The byte is a free value,
and each CXNN uses one of its own: the counter of draws is the model's own (R142, R143, the spec's decision
D18; log 2). -/
def Obligations.RndMasksTheRandomByte : Prop :=
  ∀ (x : Reg) (nn : Byte) (s : State), decodeWord (wordXNN 0xC x nn) = some (.rnd x nn) ∧
    ∃ v, exec (.rnd x nn) s = .next { s with pc := s.pc + 2, v := v, draws := s.draws + 1 } ∧
      (∀ k, (Vector.get v x).getLsbD k = ((Config.randomByte s.draws).getLsbD k && nn.getLsbD k)) ∧
      ∀ r, r ≠ x → v.get r = s.reg r

/-! ### Index register and memory -/

/-- ANNN sets I to NNN and changes nothing else but PC (R150). -/
def Obligations.LdISetsTheIndex : Prop :=
  ∀ (nnn : BitVec 12) (s : State), decodeWord (wordNNN 0xA nnn) = some (.ldI nnn) ∧
    ∃ w : Word, w.toNat = nnn.toNat ∧ exec (.ldI nnn) s = .next { s with pc := s.pc + 2, i := w }

/-- FX1E adds Vx to I. For a sum above 0xFFF the OPEN parameter FX1E_OVERFLOW decides: I takes the low 12 bits, or
MemoryFault with nothing else changed; VF never changes (R151, the spec's decision D15; log 3; a sum above 0xFFFF, which
needs I above 0xFFF, is log 11). -/
def Obligations.AddIAddsVxToTheIndex : Prop :=
  ∀ (x : Reg) (s : State), decodeWord (wordXNN 0xF x 0x1E) = some (.addI x) ∧
    (s.i.toNat + (s.reg x).toNat ≤ 0xFFF →
      ∃ w : Word, w.toNat = s.i.toNat + (s.reg x).toNat ∧
        exec (.addI x) s = .next { s with pc := s.pc + 2, i := w }) ∧
    (0xFFF < s.i.toNat + (s.reg x).toNat →
      match Config.fx1eOverflow with
      | .wrap12 => ∃ w : Word, w.toNat = (s.i.toNat + (s.reg x).toNat) % 0x1000 ∧
          exec (.addI x) s = .next { s with pc := s.pc + 2, i := w }
      | .fault => exec (.addI x) s = .next { s with fault := some ⟨.memoryFault, s.pc,
          some (wordXNN 0xF x 0x1E), some (BitVec.ofNat 16 (s.i.toNat + (s.reg x).toNat)), none⟩ })

/-- FX29 sets I to the address of the glyph of Vx's low nibble, five bytes a glyph from FONT_BASE on (R152, the spec's
decision D8; log 6). -/
def Obligations.LdFPointsAtTheGlyph : Prop :=
  ∀ (x : Reg) (s : State), decodeWord (wordXNN 0xF x 0x29) = some (.ldF x) ∧
    ∃ w : Word, w.toNat = fontBase + 5 * ((s.reg x).toNat % 16) ∧
      exec (.ldF x) s = .next { s with pc := s.pc + 2, i := w }

/-- FX33 stores the hundreds, tens and ones digits of Vx at I, I + 1 and I + 2; every other byte of memory reads as before
and nothing else changes but PC (R153; the check of the addresses is the spec's decision D7). -/
def Obligations.LdBStoresTheDigits : Prop :=
  ∀ (x : Reg) (s : State), (∀ k < 3, Writable (s.ea + k)) →
    decodeWord (wordXNN 0xF x 0x33) = some (.ldB x) ∧
    ∃ m : Memory, exec (.ldB x) s = .next { s with pc := s.pc + 2, mem := m } ∧
      (m.read s.ea).toNat = (s.reg x).toNat / 100 ∧
      (m.read (s.ea + 1)).toNat = (s.reg x).toNat / 10 % 10 ∧
      (m.read (s.ea + 2)).toNat = (s.reg x).toNat % 10 ∧
      ∀ a, a < s.ea ∨ s.ea + 2 < a → m.read a = s.mem.read a

/-- FX55 stores V0 to Vx, both included, at I to I + x; every other byte of memory reads as before and nothing else changes
but PC, I among it (R154; that I does not change is the spec's decision D13). -/
def Obligations.LdStoreStoresV0ToVx : Prop :=
  ∀ (x : Reg) (s : State), (∀ k ≤ x.val, Writable (s.ea + k)) →
    decodeWord (wordXNN 0xF x 0x55) = some (.ldStore x) ∧
    ∃ m : Memory, exec (.ldStore x) s = .next { s with pc := s.pc + 2, mem := m } ∧
      (∀ r : Reg, r ≤ x → m.read (s.ea + r.val) = s.reg r) ∧
      ∀ a, a < s.ea ∨ s.ea + x.val < a → m.read a = s.mem.read a

/-- FX65 loads V0 to Vx, both included, from I to I + x; nothing else changes but PC, I among it (R155; that I does not
change is the spec's decision D13). -/
def Obligations.LdLoadLoadsV0ToVx : Prop :=
  ∀ (x : Reg) (s : State), (∀ k ≤ x.val, Readable (s.ea + k)) →
    decodeWord (wordXNN 0xF x 0x65) = some (.ldLoad x) ∧
    ∃ v, exec (.ldLoad x) s = .next { s with pc := s.pc + 2, v := v } ∧
      ∀ r, Vector.get v r = if r ≤ x then s.mem.read (s.ea + r.val) else s.reg r

/-! ### Timers and keys -/

/-- FX07 sets Vx to the delay timer, FX15 sets the delay timer to Vx; nothing else changes but PC (R160, R162). -/
def Obligations.DelayTimerIsReadAndWritten : Prop :=
  ∀ (x : Reg) (s : State),
    decodeWord (wordXNN 0xF x 0x07) = some (.ldVxDt x) ∧ decodeWord (wordXNN 0xF x 0x15) = some (.ldDt x) ∧
    (∃ v, exec (.ldVxDt x) s = .next { s with pc := s.pc + 2, v := v } ∧
      ∀ r, Vector.get v r = if r = x then s.dt else s.reg r) ∧
    exec (.ldDt x) s = .next { s with pc := s.pc + 2, dt := s.reg x }

/-- FX18 sets the sound timer to Vx, and the tone is active exactly if Vx ≠ 0; nothing else changes but PC (R163, R183;
the tone outputs are the spec's decision D26). -/
def Obligations.SoundTimerIsWritten : Prop :=
  ∀ (x : Reg) (s : State), decodeWord (wordXNN 0xF x 0x18) = some (.ldSt x) ∧
    ∃ t, exec (.ldSt x) s = .next t ∧ t = { s with pc := s.pc + 2, st := s.reg x } ∧
      (t.toneActive = true ↔ s.reg x ≠ 0)

/-- FX0A sets Vx to the least pressed key; with no key pressed the step changes nothing, PC included (R161; the least index
and the level are the spec's decision D17). -/
def Obligations.KeyWaitTakesTheLeastKey : Prop :=
  ∀ (x : Reg) (s : State), decodeWord (wordXNN 0xF x 0x0A) = some (.ldVxK x) ∧
    (∀ k : Reg, s.key.get k = true → (∀ j < k, s.key.get j = false) →
      ∃ v, exec (.ldVxK x) s = .next { s with pc := s.pc + 2, v := v } ∧
        (Vector.get v x).toNat = k.val ∧ ∀ r, r ≠ x → v.get r = s.reg r) ∧
    ((∀ k : Reg, s.key.get k = false) → exec (.ldVxK x) s = .next s)

/-! ### Whole-machine rules -/

/-- Only CALL and RET change SP, and only CALL the stack's entries (R25, R35). -/
def Obligations.OnlyCallAndRetChangeTheStack : Prop :=
  ∀ (i : Instr) (s t : State), exec i s = .next t →
    ((t.sp ≠ s.sp → i = .ret ∨ ∃ nnn, i = .call nnn) ∧ (t.stack ≠ s.stack → ∃ nnn, i = .call nnn))

/-- Only CLS and DRW change the framebuffer or the redraw flag, and none clears the flag (R28, R33; the flag is the spec's
decision D24). -/
def Obligations.OnlyClsAndDrwChangeTheScreen : Prop :=
  ∀ (i : Instr) (s t : State), exec i s = .next t →
    (t.fb ≠ s.fb ∨ t.redraw ≠ s.redraw → i = .cls ∨ ∃ x y n, i = .drw x y n) ∧ (s.redraw = true → t.redraw = true)

/-- Only ANNN, FX1E and FX29 write I, and each leaves it at most 0xFFF or unchanged (R23, the spec's own inference). -/
def Obligations.OnlyThreeInstructionsWriteTheIndex : Prop :=
  ∀ (i : Instr) (s t : State), exec i s = .next t → t.i ≠ s.i →
    ((∃ nnn, i = .ldI nnn) ∨ ∃ x, i = .addI x ∨ i = .ldF x) ∧ t.i.toNat ≤ 0xFFF

/-- No STEP writes the key latch; FX15 alone changes the delay timer and FX18 alone the sound timer (R26, R27, R187). -/
def Obligations.EngineWritesNoKeyAndTimersOnlyByName : Prop :=
  (∀ s t : State, step s = .next t → t.key = s.key) ∧
  (∀ (i : Instr) (s t : State), exec i s = .next t →
    (t.dt ≠ s.dt → ∃ x, i = .ldDt x) ∧ (t.st ≠ s.st → ∃ x, i = .ldSt x))

/-- Only FX33 and FX55 change memory, and a byte that changes is one they may write: in 0x200–0xFFF while
RESERVED_WRITE_FAULT is true (R31, R52; the reserved region is the spec's decision D7). -/
def Obligations.OnlyTwoInstructionsWriteMemory : Prop :=
  ∀ (i : Instr) (s t : State), exec i s = .next t →
    (t.mem ≠ s.mem → ∃ x, i = .ldB x ∨ i = .ldStore x) ∧
    ∀ a, t.mem.read a ≠ s.mem.read a → Writable a

/-- VF changes only by a flag writer or as the named destination (R22, the spec's own inference). -/
def Obligations.OnlyNamedInstructionsWriteVF : Prop :=
  ∀ (i : Instr) (s t : State), exec i s = .next t → t.reg 15 ≠ s.reg 15 → writesVF i = true

/-! ### Invariants -/

/-- Every STEP keeps the invariant, from every state that meets it (R23 and R36 are the spec's own inferences; R24, R52 and
R171 are its decisions D6, D7 and D19; the canonical memory is the model's, log 15). -/
def Obligations.StepKeepsTheInvariant : Prop :=
  ∀ s t : State, s.Inv → step s = .next t → t.Inv

/-- Every transaction keeps the invariant, from every state that meets it (R36, the spec's own inference; R58 and R182–R200 rest on D20,
D23–D28). -/
def Obligations.TransactionsKeepTheInvariant : Prop :=
  ∀ (tr : Transaction) (s : State), s.Inv → (transact tr s).1.Inv

/-- Every state reachable from reset by transactions, in any order, meets the invariant: the corollary of
TransactionsKeepTheInvariant and ResetMeetsTheInvariant, with LOAD of any ROM among the transactions (R36, the spec's own
inference; R68, its decision D28). -/
def Obligations.ReachableStatesMeetTheInvariant : Prop :=
  ∀ trs : List Transaction, (runTransactions State.reset trs).Inv

/-- The state after reset meets the invariant (R42). -/
def Obligations.ResetMeetsTheInvariant : Prop := State.reset.Inv

/-! ### Transactions -/

/-- INIT, from any state, and the model's reset leave every element at its value of the reset table; INIT twice is INIT
once, and depends on nothing before it but the model's own counter of draws, which INIT keeps (R42, R200, R201; the stack,
the redraw flag and the fault status are the spec's decisions D23, D24 and D20; the font bytes are log 5; draws is log 2). -/
def Obligations.InitLeavesTheResetTable : Prop :=
  (∀ t : State, (t = State.reset ∨ ∃ s, t = (transact .init s).1) →
    (∀ a, t.mem.read a =
      if fontBase ≤ a ∧ a < fontBase + 80 then fontData.getD (a - fontBase) 0 else 0) ∧
    (∀ r, t.reg r = 0) ∧ t.i = 0 ∧ t.pc = 0x200 ∧ t.sp = 0 ∧ (∀ k, t.stack.get k = 0) ∧ t.dt = 0 ∧ t.st = 0 ∧
    (∀ k, t.key.get k = false) ∧ (∀ px py, t.fb.get px py = false) ∧ t.redraw = false ∧ t.fault = none ∧
    t.toneActive = false) ∧
  (∀ s, transact .init (transact .init s).1 = transact .init s) ∧
  ∀ s u, (transact .init s).1 = { (transact .init u).1 with draws := s.draws }

/-- LOAD copies the ROM to 0x200 and on, changes no other byte and nothing else; a ROM longer than 3584 bytes is refused
with the state unchanged (R58, the spec's decision D27). -/
def Obligations.LoadCopiesTheRom : Prop :=
  ∀ (rom : List Byte) (s : State),
    (3584 < rom.length → transact (.load rom) s = (s, .loaded .romTooLarge)) ∧
    (rom.length ≤ 3584 → ∃ m : Memory, transact (.load rom) s = ({ s with mem := m }, .loaded .ok) ∧
      (∀ (k : Nat) (h : k < rom.length), m.read (0x200 + k) = rom[k]) ∧
      ∀ a, a < 0x200 ∨ 0x200 + rom.length ≤ a → m.read a = s.mem.read a)

/-- TICK takes each timer down by one and not below zero, touches nothing else, and returns tone_trigger exactly if it
takes ST from 1 to 0 (R182, R184, the spec's decisions D25 and D26). -/
def Obligations.TickCountsTheTimersDown : Prop :=
  ∀ s : State, ∃ (d e : Byte) (trig : Bool),
    transact .tick s = ({ s with dt := d, st := e }, .ticked trig) ∧
    d.toNat = s.dt.toNat - 1 ∧ e.toNat = s.st.toNat - 1 ∧ (trig = true ↔ s.st.toNat = 1 ∧ e.toNat = 0)

/-- KEYSET sets one latch and REDRAW_ACK clears the redraw flag; neither changes anything else (R186, R188, the spec's
decisions D28 and D24). -/
def Obligations.KeysetAndRedrawAckChangeOneElement : Prop :=
  ∀ (k : Reg) (b : Bool) (s : State),
    (∃ key, transact (.keyset k b) s = ({ s with key := key }, .done) ∧
      ∀ j, Vector.get key j = if j = k then b else s.key.get j) ∧
    transact .redrawAck s = ({ s with redraw := false }, .done)

/-! ### Instructions together -/

/-- FX55 and then FX65, with the same x and I, gives V0 to Vx their values back exactly, whatever registers, timers and
latches the state has in between (R154, R155; that I does not change is the spec's decision D13). -/
def Obligations.StoreThenLoadRestoresTheRegisters : Prop :=
  ∀ (x : Reg) (s u : State), (∀ k ≤ x.val, Writable (s.ea + k)) →
    ∃ t, exec (.ldStore x) s = .next t ∧
      (u.mem = t.mem → u.i = s.i →
        ∃ w, exec (.ldLoad x) u = .next w ∧ w.i = s.i ∧ ∀ r, r ≤ x → w.reg r = s.reg r)

/-- Drawing a sprite twice at the same place restores the framebuffer; if it was drawn on unlit pixels and has a 1 bit, the
first draw reports no collision and the second one does. VF as a coordinate register is left out, since the first draw
changes it (R101; the bit order does not matter to it). -/
def Obligations.DrawingTwiceErasesTheSprite : Prop :=
  ∀ (x y : Reg) (n : Fin 16) (s : State), x ≠ 15 → y ≠ 15 → (∀ row < n.val, Readable (s.ea + row)) →
    ∃ t u, exec (.drw x y n) s = .next t ∧ exec (.drw x y n) t = .next u ∧
      (∀ px py, u.fb.get px py = s.fb.get px py) ∧
      ((∀ px py, SpriteTouches s x y n px py → s.fb.get px py = false) →
        (∃ px py, SpriteTouches s x y n px py) → t.reg 15 = 0 ∧ u.reg 15 = 1)

/-- Two bytes FX55 has stored are what a fetch from their address reads, at once and with no fence (R72, the spec's
decision D31). -/
def Obligations.StoredBytesAreFetched : Prop :=
  ∀ (x k l : Reg) (s u : State), (∀ j ≤ x.val, Writable (s.ea + j)) → l.val = k.val + 1 → l ≤ x →
    ∃ t, exec (.ldStore x) s = .next t ∧
      (u.mem = t.mem → u.pc.toNat = s.ea + k.val → fetch u = .ok (wordOfBytes (s.reg k) (s.reg l)))

/-- A STEP from a parked state returns Executed and changes nothing (R206, the spec's decision D30). -/
def Obligations.ParkedStepChangesNothing : Prop :=
  ∀ s : State, s.Parked → transact .step s = (s, .stepped .executed s.redraw)

/-- A STEP with no fault recorded waits exactly at an FX0A with no key pressed, is Faulted exactly if it recorded a fault,
and is Executed otherwise; it returns the redraw flag after the step (R30, R34, R161, the spec's decisions D17 and D24;
log 12). -/
def Obligations.StepReturnsItsStatus : Prop :=
  ∀ s t : State, s.fault = none → step s = .next t →
    (transact .step s = (t, .stepped s.stepStatus t.redraw)) ∧
    (s.stepStatus = .waitingForKey ↔
      (∃ x, fetch s = .ok (wordXNN 0xF x 0x0A)) ∧ ∀ k, s.key.get k = false) ∧
    (∀ r, s.stepStatus = .faulted r ↔ t.fault = some r)

/-- The instruction `withFetchWord` places is the one the very next step runs, from every state (log 10). -/
def Obligations.PlacedInstructionIsTheOneRun : Prop :=
  ∀ (i : Instr) (s : State), step (s.withFetchWord 16 (encode i).toNat) = exec i (s.withFetchWord 16 (encode i).toNat)
end

