-- ==== Sys2Proof/Laws/Decode.lean ====
section
/-! SUPPORT. The fields of an assembled word, and the word assembled from its fields (spec/30_encoding.md R80–R82). -/

namespace Sys2Proof

/-- A concatenation as a number: the high part times the low part's range, plus the low part. -/
theorem toNat_append_eq {m n : Nat} (a : BitVec m) (b : BitVec n) : (a ++ b).toNat = a.toNat * 2 ^ n + b.toNat := by
  rw [BitVec.toNat_append, ← Nat.shiftLeft_add_eq_or_of_lt b.isLt, Nat.shiftLeft_eq]

/-- A field as a number: the bits below it divided away, then reduced to its width. -/
theorem toNat_extract_eq {m : Nat} (lo n : Nat) (w : BitVec m) :
    (w.extractLsb' lo n).toNat = w.toNat / 2 ^ lo % 2 ^ n := by
  rw [BitVec.extractLsb'_toNat, Nat.shiftRight_eq_div_pow]

theorem toNat_wordNNN (op : BitVec 4) (nnn : BitVec 12) : (wordNNN op nnn).toNat = op.toNat * 4096 + nnn.toNat :=
  toNat_append_eq op nnn

theorem toNat_wordXNN (op : BitVec 4) (x : Reg) (nn : Byte) :
    (wordXNN op x nn).toNat = op.toNat * 4096 + x.val * 256 + nn.toNat := by
  rw [wordXNN, toNat_append_eq, toNat_append_eq]
  simp only [BitVec.toNat_ofFin]
  omega

theorem toNat_wordXYN (op : BitVec 4) (x y n : Fin 16) :
    (wordXYN op x y n).toNat = op.toNat * 4096 + x.val * 256 + y.val * 16 + n.val := by
  rw [wordXYN, toNat_append_eq, toNat_append_eq, toNat_append_eq]
  simp only [BitVec.toNat_ofFin]
  omega

theorem fieldX_val (w : Word) : (fieldX w).val = w.toNat / 256 % 16 := toNat_extract_eq 8 4 w

theorem fieldY_val (w : Word) : (fieldY w).val = w.toNat / 16 % 16 := toNat_extract_eq 4 4 w

theorem fieldN_val (w : Word) : (fieldN w).val = w.toNat % 16 :=
  (toNat_extract_eq 0 4 w).trans (by rw [Nat.pow_zero, Nat.div_one]; rfl)

theorem toNat_fieldNN (w : Word) : (fieldNN w).toNat = w.toNat % 256 :=
  (toNat_extract_eq 0 8 w).trans (by rw [Nat.pow_zero, Nat.div_one]; rfl)

theorem toNat_fieldNNN (w : Word) : (fieldNNN w).toNat = w.toNat % 4096 :=
  (toNat_extract_eq 0 12 w).trans (by rw [Nat.pow_zero, Nat.div_one]; rfl)

/-! ### The fields of an assembled word -/

@[simp] theorem major_wordNNN (op : BitVec 4) (nnn : BitVec 12) : (wordNNN op nnn).extractLsb' 12 4 = op :=
  BitVec.eq_of_toNat_eq (by rw [toNat_extract_eq, toNat_wordNNN]; omega)

@[simp] theorem fieldNNN_wordNNN (op : BitVec 4) (nnn : BitVec 12) : fieldNNN (wordNNN op nnn) = nnn :=
  BitVec.eq_of_toNat_eq (by rw [toNat_fieldNNN, toNat_wordNNN]; omega)

@[simp] theorem major_wordXNN (op : BitVec 4) (x : Reg) (nn : Byte) : (wordXNN op x nn).extractLsb' 12 4 = op :=
  BitVec.eq_of_toNat_eq (by rw [toNat_extract_eq, toNat_wordXNN]; omega)

@[simp] theorem fieldX_wordXNN (op : BitVec 4) (x : Reg) (nn : Byte) : fieldX (wordXNN op x nn) = x :=
  Fin.ext (by rw [fieldX_val, toNat_wordXNN]; omega)

@[simp] theorem fieldNN_wordXNN (op : BitVec 4) (x : Reg) (nn : Byte) : fieldNN (wordXNN op x nn) = nn :=
  BitVec.eq_of_toNat_eq (by rw [toNat_fieldNN, toNat_wordXNN]; omega)

@[simp] theorem major_wordXYN (op : BitVec 4) (x y n : Fin 16) : (wordXYN op x y n).extractLsb' 12 4 = op :=
  BitVec.eq_of_toNat_eq (by rw [toNat_extract_eq, toNat_wordXYN]; omega)

@[simp] theorem fieldX_wordXYN (op : BitVec 4) (x y n : Fin 16) : fieldX (wordXYN op x y n) = x :=
  Fin.ext (by rw [fieldX_val, toNat_wordXYN]; omega)

@[simp] theorem fieldY_wordXYN (op : BitVec 4) (x y n : Fin 16) : fieldY (wordXYN op x y n) = y :=
  Fin.ext (by rw [fieldY_val, toNat_wordXYN]; omega)

@[simp] theorem fieldN_wordXYN (op : BitVec 4) (x y n : Fin 16) : fieldN (wordXYN op x y n) = n :=
  Fin.ext (by rw [fieldN_val, toNat_wordXYN]; omega)

/-- The minor opcode n of an assembled word. -/
theorem minor_wordXYN (op : BitVec 4) (x y n : Fin 16) :
    (wordXYN op x y n).extractLsb' 0 4 = BitVec.ofFin (w := 4) n := by
  apply BitVec.eq_of_toNat_eq
  rw [toNat_extract_eq, toNat_wordXYN]
  simp only [BitVec.toNat_ofFin]
  omega

/-! ### The word assembled from its fields -/

theorem wordNNN_of_fields (w : Word) : wordNNN (w.extractLsb' 12 4) (fieldNNN w) = w :=
  BitVec.eq_of_toNat_eq (by rw [toNat_wordNNN, toNat_extract_eq, toNat_fieldNNN]; omega)

theorem wordXNN_of_fields (w : Word) : wordXNN (w.extractLsb' 12 4) (fieldX w) (fieldNN w) = w :=
  BitVec.eq_of_toNat_eq (by rw [toNat_wordXNN, toNat_extract_eq, fieldX_val, toNat_fieldNN]; omega)

theorem wordXYN_of_fields (w : Word) : wordXYN (w.extractLsb' 12 4) (fieldX w) (fieldY w) (fieldN w) = w :=
  BitVec.eq_of_toNat_eq (by rw [toNat_wordXYN, toNat_extract_eq, fieldX_val, fieldY_val, fieldN_val]; omega)

/-! ### Bytes -/

/-- The two bytes of a word, put together again, are the word (R60). -/
theorem wordOfBytes_bytes (w : Word) : wordOfBytes (w.extractLsb' 8 8) (w.extractLsb' 0 8) = w :=
  BitVec.eq_of_toNat_eq (by
    rw [wordOfBytes, toNat_append_eq, toNat_extract_eq, toNat_extract_eq]
    omega)

/-- Decoding the bytes of a word decodes the word. -/
theorem decode_bytesOfWord (w : Word) (rest : List Byte) :
    decode (bytesOfWord w ++ rest) =
      match decodeWord w with
      | some i => .ok (i, rest)
      | none => .error (.unknownOpcode w) := by
  have h := wordOfBytes_bytes w
  cases hw : decodeWord w <;> simp [bytesOfWord, decode, h, hw]

end Sys2Proof
end

