-- ==== Sys2Proof/Laws/Memory.lean ====
section
/-! SUPPORT. The memory's laws: what a read after a write gives, that every operation keeps the canonical form, and that
equal memories are equal data. -/

namespace Sys2Proof.Machine

/-- The memory right after INIT reads as the reset image (R42). -/
@[simp] theorem Memory.read_nil (a : Nat) : Memory.read [] a = resetByte a := rfl

/-- A read looks at the first cell, then at the rest. -/
theorem Memory.read_cons (c : Host.Cell) (m : Memory) (a : Nat) :
    Memory.read (c :: m) a = if c.1 = a then c.2 else m.read a := by
  unfold Memory.read
  rw [List.find?_cons]
  by_cases e : c.1 = a
  · simp [e]
  · simp [e, beq_eq_false_iff_ne.mpr e]

/-- A read after inserting a cell whose address is not yet listed. -/
theorem Memory.read_insert (m : Memory) (c : Host.Cell) (h : ∀ d ∈ m, d.1 ≠ c.1) (a : Nat) :
    (Memory.insert c m).read a = if c.1 = a then c.2 else m.read a := by
  induction m with
  | nil => exact Memory.read_cons c [] a
  | cons d m ih =>
    have hd : d.1 ≠ c.1 := h d (by simp)
    have ih := ih (fun e he => h e (by simp [he]))
    rw [Memory.insert]
    split
    · exact Memory.read_cons c (d :: m) a
    · rw [Memory.read_cons, ih, Memory.read_cons d m]
      by_cases e : d.1 = a <;> by_cases e' : c.1 = a <;> simp_all

/-- A read after taking an address out. -/
theorem Memory.read_filter (m : Memory) (b a : Nat) :
    Memory.read (m.filter fun c => c.1 != b) a = if a = b then resetByte a else m.read a := by
  induction m with
  | nil => simp
  | cons c m ih =>
    rw [List.filter_cons, Memory.read_cons]
    by_cases e : c.1 = b <;> by_cases e' : c.1 = a <;> simp_all [Memory.read_cons]

/-- A write is seen at its own address and nowhere else, in every memory (R54). -/
@[simp] theorem Memory.read_write (m : Memory) (a : Nat) (b : Byte) (a' : Nat) :
    (m.write a b).read a' = if a' = a then b else m.read a' := by
  unfold Memory.write
  by_cases h : b = resetByte a
  · simp only [h, if_true, Memory.read_filter]
    split <;> simp_all
  · simp only [h, if_false]
    rw [Memory.read_insert _ _ (by simp), Memory.read_filter]
    by_cases e : a = a' <;> simp [e, eq_comm]

/-- What the bytes read after a run of writes: the written byte inside, the old byte outside (R61, R62). -/
theorem Memory.read_writeBytes (m : Memory) (a : Nat) (bs : List Byte) (a' : Nat) :
    (m.writeBytes a bs).read a' =
      if h : a ≤ a' ∧ a' - a < bs.length then bs[a' - a]'h.2 else m.read a' := by
  induction bs generalizing m a with
  | nil => simp [Memory.writeBytes]
  | cons b bs ih =>
    simp only [Memory.writeBytes, ih, Memory.read_write]
    by_cases h1 : a + 1 ≤ a' ∧ a' - (a + 1) < bs.length
    · have h2 : a ≤ a' ∧ a' - a < (b :: bs).length := by simp only [List.length_cons]; omega
      have h3 : a' - a = (a' - (a + 1)) + 1 := by omega
      simp only [h1, h2, and_self, dif_pos]
      simp only [h3, List.getElem_cons_succ]
    · by_cases h4 : a' = a
      · subst h4
        simp
      · have h2 : ¬ (a ≤ a' ∧ a' - a < (b :: bs).length) := by simp only [List.length_cons]; omega
        rw [dif_neg h1, dif_neg h2, if_neg h4]

/-- Reading bytes gives as many as asked for. -/
@[simp] theorem Memory.length_readBytes (m : Memory) (a n : Nat) : (m.readBytes a n).length = n := by
  induction n generalizing a with
  | zero => rfl
  | succ n ih => simp [Memory.readBytes, ih]

/-- The k-th byte read is the byte at the k-th address (R62). -/
@[simp] theorem Memory.getElem_readBytes (m : Memory) (a n k : Nat) (h : k < (m.readBytes a n).length) :
    (m.readBytes a n)[k] = m.read (a + k) := by
  induction n generalizing a k with
  | zero => simp [Memory.readBytes] at h
  | succ n ih =>
    cases k with
    | zero => simp [Memory.readBytes]
    | succ k =>
      simp only [Memory.readBytes, List.getElem_cons_succ]
      rw [ih]
      congr 1
      omega

/-! ### The canonical form is kept -/

theorem Memory.mem_insert (c d : Host.Cell) (m : Memory) : d ∈ Memory.insert c m ↔ d = c ∨ d ∈ m := by
  induction m with
  | nil => simp [Memory.insert]
  | cons e m ih =>
    rw [Memory.insert]
    split
    · simp
    · simp [ih, or_left_comm]

theorem Memory.insert_rising (c : Host.Cell) (m : Memory) (hm : m.Pairwise fun c d => c.1 < d.1)
    (h : ∀ d ∈ m, d.1 ≠ c.1) : (Memory.insert c m).Pairwise fun c d => c.1 < d.1 := by
  induction m with
  | nil => simp [Memory.insert]
  | cons e m ih =>
    obtain ⟨h1, h2⟩ := List.pairwise_cons.mp hm
    rw [Memory.insert]
    split
    · rename_i hlt
      refine List.pairwise_cons.mpr ⟨fun d hd => ?_, hm⟩
      rcases List.mem_cons.mp hd with rfl | hd
      · exact hlt
      · exact hlt.trans (h1 d hd)
    · rename_i hlt
      have he := h e (by simp)
      refine List.pairwise_cons.mpr ⟨fun d hd => ?_, ih h2 (fun d hd => h d (by simp [hd]))⟩
      rcases (Memory.mem_insert c d m).mp hd with rfl | hd
      · omega
      · exact h1 d hd

/-- A write keeps the canonical form. -/
theorem Memory.write_wf (m : Memory) (a : Nat) (b : Byte) (h : m.wf) : (m.write a b).wf := by
  unfold Memory.write
  have hf : (m.filter fun c => c.1 != a).Pairwise fun c d => c.1 < d.1 := h.1.filter _
  split
  · exact ⟨hf, fun c hc => h.2 c (List.mem_of_mem_filter hc)⟩
  · rename_i hb
    refine ⟨Memory.insert_rising _ _ hf (by simp), fun c hc => ?_⟩
    rcases (Memory.mem_insert _ _ _).mp hc with rfl | hc
    · exact hb
    · exact h.2 c (List.mem_of_mem_filter hc)

/-- A write inside the bank keeps every listed address inside the bank. -/
theorem Memory.write_inBank (m : Memory) (a : Nat) (b : Byte) (ha : a ≤ Config.addrMax) (h : m.inBank) :
    (m.write a b).inBank := by
  intro c hc
  unfold Memory.write at hc
  simp only at hc
  split at hc
  · exact h c (List.mem_of_mem_filter hc)
  · rcases (Memory.mem_insert _ _ _).mp hc with rfl | hc
    · exact ha
    · exact h c (List.mem_of_mem_filter hc)

/-- A run of writes keeps the canonical form. -/
theorem Memory.writeBytes_wf (m : Memory) (a : Nat) (bs : List Byte) (h : m.wf) : (m.writeBytes a bs).wf := by
  induction bs generalizing m a with
  | nil => exact h
  | cons b bs ih => exact ih _ _ (Memory.write_wf m a b h)

/-- A run of writes inside the bank keeps every listed address inside the bank. -/
theorem Memory.writeBytes_inBank (m : Memory) (a : Nat) (bs : List Byte) (ha : a + bs.length ≤ Config.addrMax + 1)
    (h : m.inBank) : (m.writeBytes a bs).inBank := by
  induction bs generalizing m a with
  | nil => exact h
  | cons b bs ih =>
    simp only [List.length_cons] at ha
    exact ih _ _ (by omega) (Memory.write_inBank m a b (by omega) h)

/-- The memory right after reset has the canonical form. -/
theorem Memory.reset_wf : State.reset.mem.wf := ⟨List.Pairwise.nil, by simp [State.reset]⟩

/-! ### Equal memories are equal data -/

/-- A listed cell is what its address reads as. -/
theorem Memory.read_of_mem (m : Memory) (h : m.Pairwise fun c d => c.1 < d.1) (c : Host.Cell) (hc : c ∈ m) :
    m.read c.1 = c.2 := by
  induction m with
  | nil => simp at hc
  | cons d m ih =>
    obtain ⟨h1, h2⟩ := List.pairwise_cons.mp h
    rcases List.mem_cons.mp hc with rfl | hc
    · simp [Memory.read_cons]
    · have : ¬ d.1 = c.1 := (h1 c hc).ne
      have ih := ih h2 hc
      simp only [Memory.read] at ih ⊢
      simp [beq_eq_false_iff_ne.mpr this, ih]

/-- An address is listed exactly where it reads as something else than its reset byte. -/
theorem Memory.mem_iff_read (m : Memory) (h : m.wf) (c : Host.Cell) :
    c ∈ m ↔ m.read c.1 = c.2 ∧ c.2 ≠ resetByte c.1 := by
  refine ⟨fun hc => ⟨m.read_of_mem h.1 c hc, h.2 c hc⟩, fun ⟨hr, hn⟩ => ?_⟩
  unfold Memory.read at hr
  split at hr
  · rename_i d hd
    have h1 : d.1 = c.1 := by simpa using List.find?_some hd
    have h2 : d ∈ m := List.mem_of_find?_eq_some hd
    have : d = c := Prod.ext h1 hr
    exact this ▸ h2
  · exact absurd hr.symm hn

/-- Two canonical memories that read the same everywhere are the same list. -/
theorem Memory.ext_read (m m' : Memory) (h : m.wf) (h' : m'.wf) (hr : ∀ a, m.read a = m'.read a) : m = m' := by
  have hmem : ∀ c, c ∈ m ↔ c ∈ m' := fun c => by
    rw [m.mem_iff_read h, m'.mem_iff_read h', hr]
  have hp : m.Perm m' := by
    refine (List.perm_ext_iff_of_nodup ?_ ?_).mpr hmem
    · exact h.1.imp fun {a b} hab e => by simp [e] at hab
    · exact h'.1.imp fun {a b} hab e => by simp [e] at hab
  exact hp.eq_of_pairwise (fun a b _ _ h1 h2 => absurd h2 (by omega)) h.1 h'.1

end Sys2Proof.Machine
end

