-- ==== Sys2Proof/Laws/State.lean ====
section
/-! SUPPORT. One lemma per field per update of the state, so that no proof unfolds a record update. -/

namespace Sys2Proof.Machine

variable (s : State)

/-! ### setReg -/

@[simp] theorem State.setReg_mem (r : Reg) (b : Byte) : (s.setReg r b).mem = s.mem := rfl
@[simp] theorem State.setReg_v (r : Reg) (b : Byte) : (s.setReg r b).v = s.v.set r b := rfl
@[simp] theorem State.setReg_i (r : Reg) (b : Byte) : (s.setReg r b).i = s.i := rfl
@[simp] theorem State.setReg_pc (r : Reg) (b : Byte) : (s.setReg r b).pc = s.pc := rfl
@[simp] theorem State.setReg_sp (r : Reg) (b : Byte) : (s.setReg r b).sp = s.sp := rfl
@[simp] theorem State.setReg_stack (r : Reg) (b : Byte) : (s.setReg r b).stack = s.stack := rfl
@[simp] theorem State.setReg_dt (r : Reg) (b : Byte) : (s.setReg r b).dt = s.dt := rfl
@[simp] theorem State.setReg_st (r : Reg) (b : Byte) : (s.setReg r b).st = s.st := rfl
@[simp] theorem State.setReg_key (r : Reg) (b : Byte) : (s.setReg r b).key = s.key := rfl
@[simp] theorem State.setReg_fb (r : Reg) (b : Byte) : (s.setReg r b).fb = s.fb := rfl
@[simp] theorem State.setReg_redraw (r : Reg) (b : Byte) : (s.setReg r b).redraw = s.redraw := rfl
@[simp] theorem State.setReg_fault (r : Reg) (b : Byte) : (s.setReg r b).fault = s.fault := rfl
@[simp] theorem State.setReg_draws (r : Reg) (b : Byte) : (s.setReg r b).draws = s.draws := rfl

/-! ### setRegsUpTo -/

@[simp] theorem State.setRegsUpTo_mem (x : Reg) (f : Nat → Byte) : (s.setRegsUpTo x f).mem = s.mem := rfl
@[simp] theorem State.setRegsUpTo_v (x : Reg) (f : Nat → Byte) : (s.setRegsUpTo x f).v = Vector.ofFn fun r : Fin 16 => if r ≤ x then f r else s.v.get r := rfl
@[simp] theorem State.setRegsUpTo_i (x : Reg) (f : Nat → Byte) : (s.setRegsUpTo x f).i = s.i := rfl
@[simp] theorem State.setRegsUpTo_pc (x : Reg) (f : Nat → Byte) : (s.setRegsUpTo x f).pc = s.pc := rfl
@[simp] theorem State.setRegsUpTo_sp (x : Reg) (f : Nat → Byte) : (s.setRegsUpTo x f).sp = s.sp := rfl
@[simp] theorem State.setRegsUpTo_stack (x : Reg) (f : Nat → Byte) : (s.setRegsUpTo x f).stack = s.stack := rfl
@[simp] theorem State.setRegsUpTo_dt (x : Reg) (f : Nat → Byte) : (s.setRegsUpTo x f).dt = s.dt := rfl
@[simp] theorem State.setRegsUpTo_st (x : Reg) (f : Nat → Byte) : (s.setRegsUpTo x f).st = s.st := rfl
@[simp] theorem State.setRegsUpTo_key (x : Reg) (f : Nat → Byte) : (s.setRegsUpTo x f).key = s.key := rfl
@[simp] theorem State.setRegsUpTo_fb (x : Reg) (f : Nat → Byte) : (s.setRegsUpTo x f).fb = s.fb := rfl
@[simp] theorem State.setRegsUpTo_redraw (x : Reg) (f : Nat → Byte) : (s.setRegsUpTo x f).redraw = s.redraw := rfl
@[simp] theorem State.setRegsUpTo_fault (x : Reg) (f : Nat → Byte) : (s.setRegsUpTo x f).fault = s.fault := rfl
@[simp] theorem State.setRegsUpTo_draws (x : Reg) (f : Nat → Byte) : (s.setRegsUpTo x f).draws = s.draws := rfl

/-! ### setFlag -/

@[simp] theorem State.setFlag_mem (f : Bool) : (s.setFlag f).mem = s.mem := rfl
@[simp] theorem State.setFlag_v (f : Bool) : (s.setFlag f).v = s.v.set vf (flagByte f) := rfl
@[simp] theorem State.setFlag_i (f : Bool) : (s.setFlag f).i = s.i := rfl
@[simp] theorem State.setFlag_pc (f : Bool) : (s.setFlag f).pc = s.pc := rfl
@[simp] theorem State.setFlag_sp (f : Bool) : (s.setFlag f).sp = s.sp := rfl
@[simp] theorem State.setFlag_stack (f : Bool) : (s.setFlag f).stack = s.stack := rfl
@[simp] theorem State.setFlag_dt (f : Bool) : (s.setFlag f).dt = s.dt := rfl
@[simp] theorem State.setFlag_st (f : Bool) : (s.setFlag f).st = s.st := rfl
@[simp] theorem State.setFlag_key (f : Bool) : (s.setFlag f).key = s.key := rfl
@[simp] theorem State.setFlag_fb (f : Bool) : (s.setFlag f).fb = s.fb := rfl
@[simp] theorem State.setFlag_redraw (f : Bool) : (s.setFlag f).redraw = s.redraw := rfl
@[simp] theorem State.setFlag_fault (f : Bool) : (s.setFlag f).fault = s.fault := rfl
@[simp] theorem State.setFlag_draws (f : Bool) : (s.setFlag f).draws = s.draws := rfl

/-! ### setPc -/

@[simp] theorem State.setPc_mem (w : Word) : (s.setPc w).mem = s.mem := rfl
@[simp] theorem State.setPc_v (w : Word) : (s.setPc w).v = s.v := rfl
@[simp] theorem State.setPc_i (w : Word) : (s.setPc w).i = s.i := rfl
@[simp] theorem State.setPc_pc (w : Word) : (s.setPc w).pc = w := rfl
@[simp] theorem State.setPc_sp (w : Word) : (s.setPc w).sp = s.sp := rfl
@[simp] theorem State.setPc_stack (w : Word) : (s.setPc w).stack = s.stack := rfl
@[simp] theorem State.setPc_dt (w : Word) : (s.setPc w).dt = s.dt := rfl
@[simp] theorem State.setPc_st (w : Word) : (s.setPc w).st = s.st := rfl
@[simp] theorem State.setPc_key (w : Word) : (s.setPc w).key = s.key := rfl
@[simp] theorem State.setPc_fb (w : Word) : (s.setPc w).fb = s.fb := rfl
@[simp] theorem State.setPc_redraw (w : Word) : (s.setPc w).redraw = s.redraw := rfl
@[simp] theorem State.setPc_fault (w : Word) : (s.setPc w).fault = s.fault := rfl
@[simp] theorem State.setPc_draws (w : Word) : (s.setPc w).draws = s.draws := rfl

/-! ### advance -/

@[simp] theorem State.advance_mem : (s.advance).mem = s.mem := rfl
@[simp] theorem State.advance_v : (s.advance).v = s.v := rfl
@[simp] theorem State.advance_i : (s.advance).i = s.i := rfl
@[simp] theorem State.advance_pc : (s.advance).pc = s.pc + 2 := rfl
@[simp] theorem State.advance_sp : (s.advance).sp = s.sp := rfl
@[simp] theorem State.advance_stack : (s.advance).stack = s.stack := rfl
@[simp] theorem State.advance_dt : (s.advance).dt = s.dt := rfl
@[simp] theorem State.advance_st : (s.advance).st = s.st := rfl
@[simp] theorem State.advance_key : (s.advance).key = s.key := rfl
@[simp] theorem State.advance_fb : (s.advance).fb = s.fb := rfl
@[simp] theorem State.advance_redraw : (s.advance).redraw = s.redraw := rfl
@[simp] theorem State.advance_fault : (s.advance).fault = s.fault := rfl
@[simp] theorem State.advance_draws : (s.advance).draws = s.draws := rfl

/-! ### setI -/

@[simp] theorem State.setI_mem (w : Word) : (s.setI w).mem = s.mem := rfl
@[simp] theorem State.setI_v (w : Word) : (s.setI w).v = s.v := rfl
@[simp] theorem State.setI_i (w : Word) : (s.setI w).i = w := rfl
@[simp] theorem State.setI_pc (w : Word) : (s.setI w).pc = s.pc := rfl
@[simp] theorem State.setI_sp (w : Word) : (s.setI w).sp = s.sp := rfl
@[simp] theorem State.setI_stack (w : Word) : (s.setI w).stack = s.stack := rfl
@[simp] theorem State.setI_dt (w : Word) : (s.setI w).dt = s.dt := rfl
@[simp] theorem State.setI_st (w : Word) : (s.setI w).st = s.st := rfl
@[simp] theorem State.setI_key (w : Word) : (s.setI w).key = s.key := rfl
@[simp] theorem State.setI_fb (w : Word) : (s.setI w).fb = s.fb := rfl
@[simp] theorem State.setI_redraw (w : Word) : (s.setI w).redraw = s.redraw := rfl
@[simp] theorem State.setI_fault (w : Word) : (s.setI w).fault = s.fault := rfl
@[simp] theorem State.setI_draws (w : Word) : (s.setI w).draws = s.draws := rfl

/-! ### setDt -/

@[simp] theorem State.setDt_mem (b : Byte) : (s.setDt b).mem = s.mem := rfl
@[simp] theorem State.setDt_v (b : Byte) : (s.setDt b).v = s.v := rfl
@[simp] theorem State.setDt_i (b : Byte) : (s.setDt b).i = s.i := rfl
@[simp] theorem State.setDt_pc (b : Byte) : (s.setDt b).pc = s.pc := rfl
@[simp] theorem State.setDt_sp (b : Byte) : (s.setDt b).sp = s.sp := rfl
@[simp] theorem State.setDt_stack (b : Byte) : (s.setDt b).stack = s.stack := rfl
@[simp] theorem State.setDt_dt (b : Byte) : (s.setDt b).dt = b := rfl
@[simp] theorem State.setDt_st (b : Byte) : (s.setDt b).st = s.st := rfl
@[simp] theorem State.setDt_key (b : Byte) : (s.setDt b).key = s.key := rfl
@[simp] theorem State.setDt_fb (b : Byte) : (s.setDt b).fb = s.fb := rfl
@[simp] theorem State.setDt_redraw (b : Byte) : (s.setDt b).redraw = s.redraw := rfl
@[simp] theorem State.setDt_fault (b : Byte) : (s.setDt b).fault = s.fault := rfl
@[simp] theorem State.setDt_draws (b : Byte) : (s.setDt b).draws = s.draws := rfl

/-! ### setSt -/

@[simp] theorem State.setSt_mem (b : Byte) : (s.setSt b).mem = s.mem := rfl
@[simp] theorem State.setSt_v (b : Byte) : (s.setSt b).v = s.v := rfl
@[simp] theorem State.setSt_i (b : Byte) : (s.setSt b).i = s.i := rfl
@[simp] theorem State.setSt_pc (b : Byte) : (s.setSt b).pc = s.pc := rfl
@[simp] theorem State.setSt_sp (b : Byte) : (s.setSt b).sp = s.sp := rfl
@[simp] theorem State.setSt_stack (b : Byte) : (s.setSt b).stack = s.stack := rfl
@[simp] theorem State.setSt_dt (b : Byte) : (s.setSt b).dt = s.dt := rfl
@[simp] theorem State.setSt_st (b : Byte) : (s.setSt b).st = b := rfl
@[simp] theorem State.setSt_key (b : Byte) : (s.setSt b).key = s.key := rfl
@[simp] theorem State.setSt_fb (b : Byte) : (s.setSt b).fb = s.fb := rfl
@[simp] theorem State.setSt_redraw (b : Byte) : (s.setSt b).redraw = s.redraw := rfl
@[simp] theorem State.setSt_fault (b : Byte) : (s.setSt b).fault = s.fault := rfl
@[simp] theorem State.setSt_draws (b : Byte) : (s.setSt b).draws = s.draws := rfl

/-! ### setMem -/

@[simp] theorem State.setMem_mem (m : Memory) : (s.setMem m).mem = m := rfl
@[simp] theorem State.setMem_v (m : Memory) : (s.setMem m).v = s.v := rfl
@[simp] theorem State.setMem_i (m : Memory) : (s.setMem m).i = s.i := rfl
@[simp] theorem State.setMem_pc (m : Memory) : (s.setMem m).pc = s.pc := rfl
@[simp] theorem State.setMem_sp (m : Memory) : (s.setMem m).sp = s.sp := rfl
@[simp] theorem State.setMem_stack (m : Memory) : (s.setMem m).stack = s.stack := rfl
@[simp] theorem State.setMem_dt (m : Memory) : (s.setMem m).dt = s.dt := rfl
@[simp] theorem State.setMem_st (m : Memory) : (s.setMem m).st = s.st := rfl
@[simp] theorem State.setMem_key (m : Memory) : (s.setMem m).key = s.key := rfl
@[simp] theorem State.setMem_fb (m : Memory) : (s.setMem m).fb = s.fb := rfl
@[simp] theorem State.setMem_redraw (m : Memory) : (s.setMem m).redraw = s.redraw := rfl
@[simp] theorem State.setMem_fault (m : Memory) : (s.setMem m).fault = s.fault := rfl
@[simp] theorem State.setMem_draws (m : Memory) : (s.setMem m).draws = s.draws := rfl

/-! ### setFrame -/

@[simp] theorem State.setFrame_mem (fb : Frame) : (s.setFrame fb).mem = s.mem := rfl
@[simp] theorem State.setFrame_v (fb : Frame) : (s.setFrame fb).v = s.v := rfl
@[simp] theorem State.setFrame_i (fb : Frame) : (s.setFrame fb).i = s.i := rfl
@[simp] theorem State.setFrame_pc (fb : Frame) : (s.setFrame fb).pc = s.pc := rfl
@[simp] theorem State.setFrame_sp (fb : Frame) : (s.setFrame fb).sp = s.sp := rfl
@[simp] theorem State.setFrame_stack (fb : Frame) : (s.setFrame fb).stack = s.stack := rfl
@[simp] theorem State.setFrame_dt (fb : Frame) : (s.setFrame fb).dt = s.dt := rfl
@[simp] theorem State.setFrame_st (fb : Frame) : (s.setFrame fb).st = s.st := rfl
@[simp] theorem State.setFrame_key (fb : Frame) : (s.setFrame fb).key = s.key := rfl
@[simp] theorem State.setFrame_fb (fb : Frame) : (s.setFrame fb).fb = fb := rfl
@[simp] theorem State.setFrame_redraw (fb : Frame) : (s.setFrame fb).redraw = true := rfl
@[simp] theorem State.setFrame_fault (fb : Frame) : (s.setFrame fb).fault = s.fault := rfl
@[simp] theorem State.setFrame_draws (fb : Frame) : (s.setFrame fb).draws = s.draws := rfl

/-! ### nextDraw -/

@[simp] theorem State.nextDraw_mem : (s.nextDraw).mem = s.mem := rfl
@[simp] theorem State.nextDraw_v : (s.nextDraw).v = s.v := rfl
@[simp] theorem State.nextDraw_i : (s.nextDraw).i = s.i := rfl
@[simp] theorem State.nextDraw_pc : (s.nextDraw).pc = s.pc := rfl
@[simp] theorem State.nextDraw_sp : (s.nextDraw).sp = s.sp := rfl
@[simp] theorem State.nextDraw_stack : (s.nextDraw).stack = s.stack := rfl
@[simp] theorem State.nextDraw_dt : (s.nextDraw).dt = s.dt := rfl
@[simp] theorem State.nextDraw_st : (s.nextDraw).st = s.st := rfl
@[simp] theorem State.nextDraw_key : (s.nextDraw).key = s.key := rfl
@[simp] theorem State.nextDraw_fb : (s.nextDraw).fb = s.fb := rfl
@[simp] theorem State.nextDraw_redraw : (s.nextDraw).redraw = s.redraw := rfl
@[simp] theorem State.nextDraw_fault : (s.nextDraw).fault = s.fault := rfl
@[simp] theorem State.nextDraw_draws : (s.nextDraw).draws = s.draws + 1 := rfl

/-! ### drop -/

@[simp] theorem State.drop_mem : (s.drop).mem = s.mem := rfl
@[simp] theorem State.drop_v : (s.drop).v = s.v := rfl
@[simp] theorem State.drop_i : (s.drop).i = s.i := rfl
@[simp] theorem State.drop_pc : (s.drop).pc = s.pc := rfl
@[simp] theorem State.drop_sp : (s.drop).sp = ⟨s.sp.val - 1, by omega⟩ := rfl
@[simp] theorem State.drop_stack : (s.drop).stack = s.stack := rfl
@[simp] theorem State.drop_dt : (s.drop).dt = s.dt := rfl
@[simp] theorem State.drop_st : (s.drop).st = s.st := rfl
@[simp] theorem State.drop_key : (s.drop).key = s.key := rfl
@[simp] theorem State.drop_fb : (s.drop).fb = s.fb := rfl
@[simp] theorem State.drop_redraw : (s.drop).redraw = s.redraw := rfl
@[simp] theorem State.drop_fault : (s.drop).fault = s.fault := rfl
@[simp] theorem State.drop_draws : (s.drop).draws = s.draws := rfl

/-! ### takeFault -/

@[simp] theorem State.takeFault_mem (o : Option Word) (c : FaultCause) : (s.takeFault o c).mem = s.mem := rfl
@[simp] theorem State.takeFault_v (o : Option Word) (c : FaultCause) : (s.takeFault o c).v = s.v := rfl
@[simp] theorem State.takeFault_i (o : Option Word) (c : FaultCause) : (s.takeFault o c).i = s.i := rfl
@[simp] theorem State.takeFault_pc (o : Option Word) (c : FaultCause) : (s.takeFault o c).pc = s.pc := rfl
@[simp] theorem State.takeFault_sp (o : Option Word) (c : FaultCause) : (s.takeFault o c).sp = s.sp := rfl
@[simp] theorem State.takeFault_stack (o : Option Word) (c : FaultCause) : (s.takeFault o c).stack = s.stack := rfl
@[simp] theorem State.takeFault_dt (o : Option Word) (c : FaultCause) : (s.takeFault o c).dt = s.dt := rfl
@[simp] theorem State.takeFault_st (o : Option Word) (c : FaultCause) : (s.takeFault o c).st = s.st := rfl
@[simp] theorem State.takeFault_key (o : Option Word) (c : FaultCause) : (s.takeFault o c).key = s.key := rfl
@[simp] theorem State.takeFault_fb (o : Option Word) (c : FaultCause) : (s.takeFault o c).fb = s.fb := rfl
@[simp] theorem State.takeFault_redraw (o : Option Word) (c : FaultCause) : (s.takeFault o c).redraw = s.redraw := rfl
@[simp] theorem State.takeFault_fault (o : Option Word) (c : FaultCause) : (s.takeFault o c).fault = some (c.record s.pc o) := rfl
@[simp] theorem State.takeFault_draws (o : Option Word) (c : FaultCause) : (s.takeFault o c).draws = s.draws := rfl

/-! ### skipIf -/

@[simp] theorem State.skipIf_mem (c : Bool) : (s.skipIf c).mem = s.mem := by cases c <;> rfl
@[simp] theorem State.skipIf_v (c : Bool) : (s.skipIf c).v = s.v := by cases c <;> rfl
@[simp] theorem State.skipIf_i (c : Bool) : (s.skipIf c).i = s.i := by cases c <;> rfl
@[simp] theorem State.skipIf_pc (c : Bool) : (s.skipIf c).pc = if c then s.pc + 2 else s.pc := by cases c <;> rfl
@[simp] theorem State.skipIf_sp (c : Bool) : (s.skipIf c).sp = s.sp := by cases c <;> rfl
@[simp] theorem State.skipIf_stack (c : Bool) : (s.skipIf c).stack = s.stack := by cases c <;> rfl
@[simp] theorem State.skipIf_dt (c : Bool) : (s.skipIf c).dt = s.dt := by cases c <;> rfl
@[simp] theorem State.skipIf_st (c : Bool) : (s.skipIf c).st = s.st := by cases c <;> rfl
@[simp] theorem State.skipIf_key (c : Bool) : (s.skipIf c).key = s.key := by cases c <;> rfl
@[simp] theorem State.skipIf_fb (c : Bool) : (s.skipIf c).fb = s.fb := by cases c <;> rfl
@[simp] theorem State.skipIf_redraw (c : Bool) : (s.skipIf c).redraw = s.redraw := by cases c <;> rfl
@[simp] theorem State.skipIf_fault (c : Bool) : (s.skipIf c).fault = s.fault := by cases c <;> rfl
@[simp] theorem State.skipIf_draws (c : Bool) : (s.skipIf c).draws = s.draws := by cases c <;> rfl

/-- A skip leaves PC 4 past the fetch address if taken, else 2 past it (R93). -/
theorem State.advance_skipIf (c : Bool) :
    s.advance.skipIf c = { s with pc := if c = true then s.pc + 4 else s.pc + 2 } := by
  have h : s.pc + 2 + 2 = s.pc + 4 := by rw [BitVec.add_assoc]; rfl
  cases c
  · rfl
  · rw [← h]; rfl

/-! ### push -/

@[simp] theorem State.push_mem (w : Word) : (s.push w).mem = s.mem := by unfold State.push; split <;> rfl
@[simp] theorem State.push_v (w : Word) : (s.push w).v = s.v := by unfold State.push; split <;> rfl
@[simp] theorem State.push_i (w : Word) : (s.push w).i = s.i := by unfold State.push; split <;> rfl
@[simp] theorem State.push_pc (w : Word) : (s.push w).pc = s.pc := by unfold State.push; split <;> rfl
@[simp] theorem State.push_dt (w : Word) : (s.push w).dt = s.dt := by unfold State.push; split <;> rfl
@[simp] theorem State.push_st (w : Word) : (s.push w).st = s.st := by unfold State.push; split <;> rfl
@[simp] theorem State.push_key (w : Word) : (s.push w).key = s.key := by unfold State.push; split <;> rfl
@[simp] theorem State.push_fb (w : Word) : (s.push w).fb = s.fb := by unfold State.push; split <;> rfl
@[simp] theorem State.push_redraw (w : Word) : (s.push w).redraw = s.redraw := by unfold State.push; split <;> rfl
@[simp] theorem State.push_fault (w : Word) : (s.push w).fault = s.fault := by unfold State.push; split <;> rfl
@[simp] theorem State.push_draws (w : Word) : (s.push w).draws = s.draws := by unfold State.push; split <;> rfl

theorem State.push_stack (w : Word) (h : s.sp.val < 16) : (s.push w).stack = s.stack.set s.sp.val w := by
  simp [State.push, h]

theorem State.push_sp (w : Word) (h : s.sp.val < 16) : (s.push w).sp.val = s.sp.val + 1 := by
  simp [State.push, h]

/-! ### Reading a register after an update -/

/-- The register file after one register is set (R21). -/
theorem get_set_reg (v : Vector Byte 16) (x r : Reg) (b : Byte) :
    (v.set x b).get r = if r = x then b else v.get r := by
  simp only [Vector.get_eq_getElem, Vector.getElem_set, Fin.ext_iff, eq_comm]

/-- A register written reads back, and every other one keeps its value (R21). -/
@[simp] theorem State.reg_setReg (r q : Reg) (b : Byte) : (s.setReg r b).reg q = if q = r then b else s.reg q :=
  get_set_reg s.v r q b

@[simp] theorem State.reg_setFlag (f : Bool) (q : Reg) :
    (s.setFlag f).reg q = if q = vf then flagByte f else s.reg q := State.reg_setReg s vf q _

@[simp] theorem State.reg_setRegsUpTo (x q : Reg) (f : Nat → Byte) :
    (s.setRegsUpTo x f).reg q = if q ≤ x then f q else s.reg q := by
  simp [State.reg, State.setRegsUpTo, Vector.get_eq_getElem]

@[simp] theorem State.reg_advance (q : Reg) : s.advance.reg q = s.reg q := rfl

@[simp] theorem State.reg_setFrame (fb : Frame) (q : Reg) : (s.setFrame fb).reg q = s.reg q := rfl

@[simp] theorem State.reg_nextDraw (q : Reg) : s.nextDraw.reg q = s.reg q := rfl

end Sys2Proof.Machine
end

