-- ==== Sys2Proof/Laws/Ops.lean ====
section
/-! SUPPORT. One lemma per shared operation that says what it can do: the access checks, the fetch, the key latch, the
stack, taking a fault, the register list of a store. -/

namespace Sys2Proof.Machine

/-! ### Access checks -/

/-- CheckRead passes exactly up to 0xFFF (R52). -/
@[simp] theorem readOk_iff (a : Nat) : readOk a = true ↔ a ≤ 0xFFF := decide_eq_true_iff

/-- CheckWrite passes up to 0xFFF, and not below 0x200 while RESERVED_WRITE_FAULT is true (R52). -/
@[simp] theorem writeOkWith_iff (p : Bool) (a : Nat) :
    writeOkWith p a = true ↔ a ≤ 0xFFF ∧ (p = true → 0x200 ≤ a) := by
  rw [writeOkWith, Bool.and_eq_true, decide_eq_true_iff]
  refine and_congr Iff.rfl ?_
  cases p
  · simp
  · simp only [Bool.and_true, Bool.not_eq_true', decide_eq_false_iff_not, not_lt, true_implies]
    rfl

/-- No address of the run fails (R174). -/
theorem firstBad_eq_none_iff (ok : Nat → Bool) (a n : Nat) :
    firstBad ok a n = none ↔ ∀ k < n, ok (a + k) = true := by
  induction n generalizing a with
  | zero => simp [firstBad]
  | succ n ih =>
    rw [firstBad]
    split
    · rename_i h
      rw [ih, Nat.forall_lt_succ_left]
      simp only [Nat.add_zero, h, true_and]
      exact forall₂_congr fun k _ => by rw [Nat.add_right_comm, Nat.add_assoc]
    · rename_i h
      simp only [reduceCtorEq, false_iff]
      exact fun q => h (q 0 (by omega))

/-- The failing address reported is the lowest of the run (R174). -/
theorem firstBad_eq_some_iff (ok : Nat → Bool) (a n b : Nat) :
    firstBad ok a n = some b ↔ ∃ k < n, b = a + k ∧ ok b = false ∧ ∀ j < k, ok (a + j) = true := by
  induction n generalizing a with
  | zero => simp [firstBad]
  | succ n ih =>
    rw [firstBad]
    split
    · rename_i h
      rw [ih]
      constructor
      · rintro ⟨k, hk, rfl, hb, hj⟩
        refine ⟨k + 1, by omega, by omega, hb, fun j hjk => ?_⟩
        rcases j with _ | j
        · exact h
        · rw [show a + (j + 1) = a + 1 + j by omega]
          exact hj j (by omega)
      · rintro ⟨k, hk, rfl, hb, hj⟩
        rcases k with _ | k
        · simp [h] at hb
        · refine ⟨k, by omega, by omega, hb, fun j hjk => ?_⟩
          rw [show a + 1 + j = a + (j + 1) by omega]
          exact hj (j + 1) (by omega)
    · rename_i h
      simp only [Option.some.injEq]
      constructor
      · rintro rfl
        exact ⟨0, by omega, by omega, by simpa using h, by omega⟩
      · rintro ⟨k, hk, rfl, hb, hj⟩
        rcases k with _ | k
        · rfl
        · exact absurd (hj 0 (by omega)) h

/-! ### Fetch -/

/-- A fetch from 0x000–0xFFE reads the word at PC, high byte first (R60, R91). -/
theorem fetch_ok (s : State) (h : s.pc.toNat ≤ 0xFFE) :
    fetch s = .ok (wordOfBytes (s.mem.read s.pc.toNat) (s.mem.read (s.pc.toNat + 1))) := by
  have : firstBad readOk s.pc.toNat 2 = none := by
    rw [firstBad_eq_none_iff]
    intro k hk
    rw [readOk_iff]
    omega
  simp [fetch, this]

/-- A fetch that succeeds was from 0x000–0xFFE. -/
theorem pc_of_fetch_ok (s : State) (w : Word) (h : fetch s = .ok w) : s.pc.toNat ≤ 0xFFE := by
  unfold fetch at h
  split at h
  · rename_i hb
    have := (firstBad_eq_none_iff _ _ _).mp hb 1 (by omega)
    rw [readOk_iff] at this
    omega
  · cases h

/-- A fetch that fails names PC, or 0x1000 where PC is 0xFFF (R91). -/
theorem fetch_error_iff (s : State) (a : Nat) :
    fetch s = .error a ↔ 0xFFF ≤ s.pc.toNat ∧ a = max s.pc.toNat 0x1000 := by
  unfold fetch
  split
  · rename_i hb
    have := (firstBad_eq_none_iff _ _ _).mp hb 1 (by omega)
    rw [readOk_iff] at this
    simp only [reduceCtorEq, false_iff]
    omega
  · rename_i b hb
    obtain ⟨k, hk, rfl, hf, hj⟩ := (firstBad_eq_some_iff _ _ _ _).mp hb
    have hf : ¬ s.pc.toNat + k ≤ 0xFFF := fun q => by simp [(readOk_iff _).mpr q] at hf
    have h0 : k = 1 → s.pc.toNat ≤ 0xFFF := fun e => by
      have := hj 0 (by omega)
      rwa [readOk_iff] at this
    simp only [Except.error.injEq]
    omega

/-! ### Key latch -/

/-- A least key is pressed, and every lower one is not (R161). -/
theorem State.leastKey_eq_some_iff (s : State) (k : Reg) :
    s.leastKey = some k ↔ s.pressed k = true ∧ ∀ j < k, s.pressed j = false := by
  unfold State.leastKey
  constructor
  · intro h
    refine ⟨List.find?_some h, fun j hj => ?_⟩
    obtain ⟨_, as, bs, hl, hn⟩ := List.find?_eq_some_iff_append.mp h
    have hs : (as ++ k :: bs).Pairwise (· < ·) := hl ▸ List.pairwise_lt_finRange 16
    have hm : j ∈ as ++ k :: bs := hl ▸ List.mem_finRange j
    rcases List.mem_append.mp hm with hm | hm
    · simpa using hn j hm
    · have hk := (List.pairwise_cons.mp (List.pairwise_append.mp hs).2.1).1
      rcases List.mem_cons.mp hm with rfl | hm
      · exact absurd hj (lt_irrefl _)
      · exact absurd hj (not_lt.mpr (hk j hm).le)
  · rintro ⟨hk, hj⟩
    rcases hf : (List.finRange 16).find? s.pressed with _ | k'
    · have := List.find?_eq_none.mp hf k (List.mem_finRange k)
      exact absurd hk this
    · obtain ⟨_, as, bs, hl, hn⟩ := List.find?_eq_some_iff_append.mp hf
      have hs : (as ++ k' :: bs).Pairwise (· < ·) := hl ▸ List.pairwise_lt_finRange 16
      have hm : k ∈ as ++ k' :: bs := hl ▸ List.mem_finRange k
      rcases List.mem_append.mp hm with hm | hm
      · have := hn k hm
        simp [hk] at this
      · rcases List.mem_cons.mp hm with rfl | hm
        · rfl
        · have h1 := (List.pairwise_cons.mp (List.pairwise_append.mp hs).2.1).1 k hm
          have h2 := List.find?_some hf
          rw [hj k' h1] at h2
          cases h2

/-- There is no least key exactly when no key is pressed (R161). -/
theorem State.leastKey_eq_none_iff (s : State) : s.leastKey = none ↔ ∀ k, s.pressed k = false := by
  simp [State.leastKey, List.find?_eq_none]

/-! ### Stack -/

/-- What is pushed is what is on top (R110, R112). -/
theorem State.top_push (s : State) (w : Word) (h : s.sp.val < 16) : (s.push w).top = w := by
  simp [State.push, State.top, h, Vector.get_eq_getElem]

/-! ### Registers stored -/

/-- FX55 stores x + 1 registers (R154). -/
@[simp] theorem State.length_regsUpTo (s : State) (x : Reg) : (s.regsUpTo x).length = x.val + 1 := by
  simp [State.regsUpTo, List.length_take]

/-- The k-th byte FX55 stores is V[k] (R154). -/
theorem State.getElem_regsUpTo (s : State) (x k : Reg) (h : k.val < (s.regsUpTo x).length) :
    (s.regsUpTo x)[k.val] = s.reg k := by
  simp [State.regsUpTo, State.reg, Vector.get_eq_getElem]

/-! ### Taking a fault -/

/-- A record carries the fetch address and the opcode it was made with (R171). -/
@[simp] theorem FaultCause.record_pc (c : FaultCause) (pc : Word) (o : Option Word) : (c.record pc o).pc = pc := by
  cases c <;> rfl

@[simp] theorem FaultCause.record_opcode (c : FaultCause) (pc : Word) (o : Option Word) :
    (c.record pc o).opcode = o := by
  cases c <;> rfl

/-- A fault taken changes the fault status and nothing else (R172). -/
theorem State.takeFault_eq (s : State) (o : Option Word) (c : FaultCause) :
    s.takeFault o c = { s with fault := some (c.record s.pc o) } := rfl

end Sys2Proof.Machine
end

