-- ==== Sys2Proof/Laws/Drawing.lean ====
section
/-! SUPPORT. What drawing a sprite does to each pixel and to the collision flag (spec/41_display.md R101): the loops of the
model against one condition per pixel. -/

namespace Sys2Proof.Machine

/-- A pixel after one pixel is put. -/
theorem Frame.get_put (fb : Frame) (x x' : Fin 64) (y y' : Fin 32) (b : Bool) :
    (fb.put x y b).get x' y' = if x' = x ∧ y' = y then b else fb.get x' y' := by
  simp only [Frame.get, Frame.put, Vector.get_eq_getElem, Vector.getElem_set, Fin.ext_iff]
  by_cases hx : x.val = x'.val
  · by_cases hy : y.val = y'.val
    · simp [hx, hy]
    · simp [hx, hy, Ne.symm hy]
  · simp [hx, Ne.symm hx]

@[simp] theorem Frame.get_blank (x : Fin 64) (y : Fin 32) : Frame.blank.get x y = false := by
  simp [Frame.get, Frame.blank, Vector.get_eq_getElem]

/-- A pixel after a flip. -/
theorem Canvas.get_flip (c : Canvas) (x x' : Fin 64) (y y' : Fin 32) :
    (c.flip x y).fb.get x' y' = if x' = x ∧ y' = y then !c.fb.get x' y' else c.fb.get x' y' := by
  rw [Canvas.flip, Frame.get_put]
  split
  · rename_i h
    rw [h.1, h.2]
  · rfl

/-- One result of drawing: the pixels where `T` holds are inverted, no other, and the hit flag notes a lit one among them. -/
structure Canvas.Draws (c d : Canvas) (T : Fin 64 → Fin 32 → Prop) : Prop where
  inside : ∀ px py, T px py → d.fb.get px py = !c.fb.get px py
  outside : ∀ px py, ¬ T px py → d.fb.get px py = c.fb.get px py
  hit : d.hit = true ↔ c.hit = true ∨ ∃ px py, T px py ∧ c.fb.get px py = true

/-- Drawing on two sets of pixels that do not meet is drawing on their union. -/
theorem Canvas.Draws.trans {c d e : Canvas} {T U W : Fin 64 → Fin 32 → Prop} (h1 : c.Draws d T) (h2 : d.Draws e U)
    (hd : ∀ px py, T px py → ¬ U px py) (hW : ∀ px py, W px py ↔ T px py ∨ U px py) : c.Draws e W where
  inside px py h := by
    by_cases ht : T px py
    · rw [h2.outside _ _ (hd _ _ ht), h1.inside _ _ ht]
    · rw [h2.inside _ _ (((hW _ _).mp h).resolve_left ht), h1.outside _ _ ht]
  outside px py h := by
    rw [hW, not_or] at h
    rw [h2.outside _ _ h.2, h1.outside _ _ h.1]
  hit := by
    rw [h2.hit, h1.hit, or_assoc]
    refine or_congr_right ⟨?_, ?_⟩
    · rintro (⟨px, py, ht, hp⟩ | ⟨px, py, hu, hp⟩)
      · exact ⟨px, py, (hW _ _).mpr (.inl ht), hp⟩
      · rw [h1.outside _ _ fun ht => hd _ _ ht hu] at hp
        exact ⟨px, py, (hW _ _).mpr (.inr hu), hp⟩
    · rintro ⟨px, py, hw, hp⟩
      by_cases ht : T px py
      · exact .inl ⟨px, py, ht, hp⟩
      · refine .inr ⟨px, py, ((hW _ _).mp hw).resolve_left ht, ?_⟩
        rw [h1.outside _ _ ht, hp]

/-- Drawing no pixel. -/
theorem Canvas.Draws.refl (c : Canvas) {T : Fin 64 → Fin 32 → Prop} (h : ∀ px py, ¬ T px py) : c.Draws c T where
  inside px py ht := absurd ht (h px py)
  outside _ _ _ := rfl
  hit := ⟨.inl, fun q => q.resolve_right fun ⟨px, py, ht, _⟩ => h px py ht⟩

/-- One bit draws its own pixel where it is 1, and nothing where it is 0. -/
theorem Canvas.drawBit_draws (x0 : Nat) (y : Fin 32) (b : Byte) (c : Canvas) (col : Nat) :
    c.Draws (c.drawBit x0 y b col) fun px py => b.getLsbD (7 - col) = true ∧ px = pixelX x0 col ∧ py = y := by
  unfold Canvas.drawBit
  split
  · rename_i hb
    refine ⟨fun px py h => ?_, fun px py h => ?_, ?_⟩
    · rw [Canvas.get_flip, if_pos h.2]
    · rw [Canvas.get_flip, if_neg fun q => h ⟨hb, q⟩]
    · simp [Canvas.flip, hb]
  · rename_i hb
    exact Canvas.Draws.refl c fun px py h => hb h.1

/-- The first k columns of a sprite byte. -/
theorem Canvas.drawCols_draws (x0 : Nat) (y : Fin 32) (b : Byte) (c : Canvas) (k : Nat) (hk : k ≤ 64) :
    c.Draws ((List.range k).foldl (Canvas.drawBit x0 y b) c) fun px py =>
      ∃ col < k, b.getLsbD (7 - col) = true ∧ px = pixelX x0 col ∧ py = y := by
  induction k with
  | zero => exact Canvas.Draws.refl c (by simp)
  | succ k ih =>
    rw [List.range_succ, List.foldl_append]
    refine (ih (by omega)).trans (Canvas.drawBit_draws x0 y b _ k) ?_ fun px py => ?_
    · rintro px py ⟨col, hcol, _, rfl, _⟩ ⟨_, hx, _⟩
      have := congrArg Fin.val hx
      simp only [pixelX] at this
      omega
    · rw [Nat.exists_lt_succ_right]

/-- A sprite byte draws the pixels of its 1 bits on its row (R101). -/
theorem Canvas.drawByte_draws (x0 : Nat) (y : Fin 32) (b : Byte) (c : Canvas) :
    c.Draws (c.drawByte x0 y b) fun px py =>
      ∃ col < 8, b.getLsbD (7 - col) = true ∧ px = pixelX x0 col ∧ py = y :=
  Canvas.drawCols_draws x0 y b c 8 (by omega)

/-- A sprite of at most 32 rows draws the pixels of its 1 bits, each once, and the hit flag says whether one of them was
lit (R101). -/
theorem Canvas.drawRows_draws (x0 y0 : Nat) (bs : List Byte) (row : Nat) (c : Canvas) (h : bs.length ≤ 32) :
    c.Draws (Canvas.drawRows x0 y0 row c bs) fun px py =>
      ∃ r, ∃ hr : r < bs.length, ∃ col < 8,
        bs[r].getLsbD (7 - col) = true ∧ px = pixelX x0 col ∧ py = pixelY y0 (row + r) := by
  induction bs generalizing row c with
  | nil => exact Canvas.Draws.refl c (by simp)
  | cons b bs ih =>
    simp only [List.length_cons] at h
    refine (Canvas.drawByte_draws x0 (pixelY y0 row) b c).trans (ih (row + 1) _ (by omega)) ?_ fun px py => ?_
    · rintro px py ⟨_, _, _, _, rfl⟩ ⟨r, hr, _, _, _, _, hy⟩
      have := congrArg Fin.val hy
      simp only [pixelY] at this
      omega
    · constructor
      · rintro ⟨r, hr, col, hcol, hb, hx, hy⟩
        rcases r with _ | r
        · exact .inl ⟨col, hcol, hb, hx, hy⟩
        · refine .inr ⟨r, by simpa using hr, col, hcol, hb, hx, ?_⟩
          rw [hy, Nat.add_right_comm, Nat.add_assoc]
      · rintro (⟨col, hcol, hb, hx, hy⟩ | ⟨r, hr, col, hcol, hb, hx, hy⟩)
        · exact ⟨0, by simp, col, hcol, hb, hx, hy⟩
        · refine ⟨r + 1, by simpa using hr, col, hcol, hb, hx, ?_⟩
          rw [hy, Nat.add_right_comm, Nat.add_assoc]

end Sys2Proof.Machine
end

