-- ==== Sys2Proof/Laws/Exec.lean ====
section
/-! SUPPORT. What the shared forms of the meanings can answer: one lemma each, cited instead of unfolding them. -/

namespace Sys2Proof.Machine

variable {s t : State}

/-- A raised fault is the fault taken, with the instruction's word (R172). -/
theorem raise_next {i : Instr} {c : FaultCause} (h : raise i c s = .next t) : t = s.takeFault (some (encode i)) c := by
  cases h
  rfl

/-- A register write changes PC and that register (R12). -/
theorem finishReg_next {x : Reg} {b : Byte} (h : finishReg x b s = .next t) : t = s.advance.setReg x b := by
  cases h
  rfl

/-- A register write with a flag changes PC, that register and VF, the flag last (R211). -/
theorem finishRegFlag_next {x : Reg} {b : Byte} {f : Bool} (h : finishRegFlag x b f s = .next t) :
    t = (s.advance.setReg x b).setFlag f := by
  cases h
  rfl

/-- A skip changes PC only (R93). -/
theorem finishSkip_next {c : Bool} (h : finishSkip c s = .next t) : t = s.advance.skipIf c := by
  cases h
  rfl

/-- A key skip tests the key its index selects, or takes KeyIndexFault (R124–R126). -/
theorem finishKeySkip_next {i : Instr} {x : Reg} {w : Bool} (h : finishKeySkip i x w s = .next t) :
    (∃ k, keyIndex (s.reg x) = some k ∧ t = s.advance.skipIf (s.pressed k == w)) ∨
    (keyIndex (s.reg x) = none ∧ t = s.takeFault (some (encode i)) (.keyIndex (s.reg x))) := by
  unfold finishKeySkip at h
  split at h
  · exact .inr ⟨‹_›, raise_next h⟩
  · exact .inl ⟨_, ‹_›, finishSkip_next h⟩

/-- A store at I writes every byte, or takes a MemoryFault at the lowest address that fails (R153, R154). -/
theorem storeAtIWith_next {p : Bool} {i : Instr} {bs : List Byte} (h : storeAtIWith p i bs s = .next t) :
    ((∀ k < bs.length, writeOkWith p (s.ea + k) = true) ∧ t = s.advance.setMem (s.mem.writeBytes s.ea bs)) ∨
    ∃ k < bs.length, writeOkWith p (s.ea + k) = false ∧ (∀ j < k, writeOkWith p (s.ea + j) = true) ∧
      t = s.takeFault (some (encode i)) (.memory (s.ea + k)) := by
  unfold storeAtIWith at h
  split at h
  · rename_i a ha
    obtain ⟨k, hk, rfl, hf, hj⟩ := (firstBad_eq_some_iff _ _ _ _).mp ha
    exact .inr ⟨k, hk, hf, hj, raise_next h⟩
  · rename_i ha
    cases h
    exact .inl ⟨(firstBad_eq_none_iff _ _ _).mp ha, rfl⟩

/-- A load at I reads every byte into its register, or takes a MemoryFault at the lowest address that fails (R155). -/
theorem execLdLoad_next {x : Reg} (h : execLdLoad x s = .next t) :
    ((∀ k < x.val + 1, readOk (s.ea + k) = true) ∧
      t = s.advance.setRegsUpTo x fun k => s.mem.read (s.ea + k)) ∨
    ∃ k < x.val + 1, readOk (s.ea + k) = false ∧ (∀ j < k, readOk (s.ea + j) = true) ∧
      t = s.takeFault (some (encode (.ldLoad x))) (.memory (s.ea + k)) := by
  unfold execLdLoad at h
  split at h
  · rename_i a ha
    obtain ⟨k, hk, rfl, hf, hj⟩ := (firstBad_eq_some_iff _ _ _ _).mp ha
    exact .inr ⟨k, hk, hf, hj, raise_next h⟩
  · rename_i ha
    cases h
    exact .inl ⟨(firstBad_eq_none_iff _ _ _).mp ha, rfl⟩

/-- The index sum gives an address, or its own value as the fault of a sum above 0xFFF (R151). -/
theorem indexSumWith_cases (p : OverflowPolicy) (w : Word) (b : Byte) :
    (∃ w' : Word, w'.toNat ≤ 0xFFF ∧ indexSumWith p w b = .ok w') ∨
    (0xFFF < w.toNat + b.toNat ∧ p = .fault ∧ indexSumWith p w b = .error (w.toNat + b.toNat)) := by
  by_cases hs : w.toNat + b.toNat ≤ Config.addrMax
  · refine .inl ⟨BitVec.ofNat 16 (w.toNat + b.toNat), ?_, if_pos hs⟩
    rw [BitVec.toNat_ofNat]
    exact (Nat.mod_le _ _).trans hs
  · cases p
    · refine .inl ⟨BitVec.ofNat 16 ((w.toNat + b.toNat) % 0x1000), ?_, if_neg hs⟩
      rw [BitVec.toNat_ofNat]
      omega
    · exact .inr ⟨not_le.mp hs, rfl, if_neg hs⟩

/-- The index sum is at most 0xFFF, or is the fault of a sum above it (R151). -/
theorem addIWith_next {p : OverflowPolicy} {x : Reg} (h : addIWith p x s = .next t) :
    (∃ w : Word, w.toNat ≤ 0xFFF ∧ t = s.advance.setI w) ∨
    (0xFFF < s.i.toNat + (s.reg x).toNat ∧ p = .fault ∧
      t = s.takeFault (some (encode (.addI x))) (.memory (s.i.toNat + (s.reg x).toNat))) := by
  unfold addIWith at h
  rcases indexSumWith_cases p s.i (s.reg x) with ⟨w, hw, e⟩ | ⟨hs, hp, e⟩
  · rw [e] at h
    cases h
    exact .inl ⟨w, hw, rfl⟩
  · rw [e] at h
    exact .inr ⟨hs, hp, raise_next h⟩

/-- A drawn sprite, or a MemoryFault at the lowest address that cannot be read (R101). -/
theorem execDrw_next {x y : Reg} {n : Fin 16} (h : execDrw x y n s = .next t) :
    ((∀ k < n.val, readOk (s.ea + k) = true) ∧
      t = (s.advance.setFrame (s.drawSprite x y n).fb).setFlag (s.drawSprite x y n).hit) ∨
    ∃ k < n.val, readOk (s.ea + k) = false ∧ (∀ j < k, readOk (s.ea + j) = true) ∧
      t = s.takeFault (some (encode (.drw x y n))) (.memory (s.ea + k)) := by
  unfold execDrw at h
  split at h
  · rename_i a ha
    obtain ⟨k, hk, rfl, hf, hj⟩ := (firstBad_eq_some_iff _ _ _ _).mp ha
    exact .inr ⟨k, hk, hf, hj, raise_next h⟩
  · rename_i ha
    cases h
    exact .inl ⟨(firstBad_eq_none_iff _ _ _).mp ha, rfl⟩

/-- RET pops, or takes StackUnderflow on an empty stack (R110). -/
theorem execRet_next (h : execRet s = .next t) :
    (s.sp ≠ 0 ∧ t = s.drop.setPc s.top) ∨ (s.sp = 0 ∧ t = s.takeFault (some (encode .ret)) .stackUnderflow) := by
  unfold execRet at h
  split at h
  · exact .inr ⟨‹_›, raise_next h⟩
  · cases h
    exact .inl ⟨‹_›, rfl⟩

/-- CALL pushes and jumps, or takes StackOverflow on a full stack (R112). -/
theorem execCall_next {nnn : BitVec 12} (h : execCall nnn s = .next t) :
    (s.sp ≠ 16 ∧ t = (s.push (s.pc + 2)).setPc (address nnn)) ∨
    (s.sp = 16 ∧ t = s.takeFault (some (encode (.call nnn))) .stackOverflow) := by
  unfold execCall at h
  split at h
  · exact .inr ⟨‹_›, raise_next h⟩
  · cases h
    exact .inl ⟨‹_›, rfl⟩

/-- The key wait writes the least pressed key, or leaves the state as it is (R161). -/
theorem execLdVxK_next {x : Reg} (h : execLdVxK x s = .next t) :
    (∃ k, s.leastKey = some k ∧ t = s.advance.setReg x (BitVec.ofNat 8 k.val)) ∨ (s.leastKey = none ∧ t = s) := by
  unfold execLdVxK at h
  split at h
  · cases h
    exact .inl ⟨_, ‹_›, rfl⟩
  · cases h
    exact .inr ⟨‹_›, rfl⟩

end Sys2Proof.Machine
end

