-- ==== Sys2Proof/Laws/Effects.lean ====
section
/-! SUPPORT. What an instruction can do, said once: the shapes of the next states `exec` answers, by instruction, for
the proofs over all instructions. -/

namespace Sys2Proof.Machine

/-- The next states of an instruction in a state, one constructor per shape. -/
inductive ExecEffect (i : Instr) (s : State) : State → Prop where
  | fault (c : FaultCause) : ExecEffect i s (s.takeFault (some (encode i)) c)
  | clear (hi : i = .cls) : ExecEffect i s (s.advance.setFrame Frame.blank)
  | draw (x y : Reg) (n : Fin 16) (hi : i = .drw x y n) :
      ExecEffect i s ((s.advance.setFrame (s.drawSprite x y n).fb).setFlag (s.drawSprite x y n).hit)
  | load (x : Reg) (hi : i = .ldLoad x) :
      ExecEffect i s (s.advance.setRegsUpTo x fun k => s.mem.read (s.ea + k))
  | store (x : Reg) (bs : List Byte) (hi : i = .ldB x ∨ i = .ldStore x)
      (hw : ∀ k < bs.length, writeOkWith reservedWriteFault (s.ea + k) = true) :
      ExecEffect i s (s.advance.setMem (s.mem.writeBytes s.ea bs))
  | ret (hi : i = .ret) (hs : s.sp ≠ 0) : ExecEffect i s (s.drop.setPc s.top)
  | call (nnn : BitVec 12) (hi : i = .call nnn) (hs : s.sp ≠ 16) :
      ExecEffect i s ((s.push (s.pc + 2)).setPc (address nnn))
  | skip (c : Bool) (hv : writesVF i = false) : ExecEffect i s (s.advance.skipIf c)
  | index (w : Word) (hw : w.toNat ≤ 0xFFF) (hi : (∃ nnn, i = .ldI nnn) ∨ ∃ x, i = .addI x ∨ i = .ldF x) :
      ExecEffect i s (s.advance.setI w)
  | wait (x : Reg) (hi : i = .ldVxK x) (hk : s.leastKey = none) : ExecEffect i s s
  | reg (x : Reg) (b : Byte) (hv : writesVF i = (x == 15)) : ExecEffect i s (s.advance.setReg x b)
  | random (x : Reg) (b : Byte) (hv : writesVF i = (x == 15)) : ExecEffect i s (s.nextDraw.advance.setReg x b)
  | regFlag (x : Reg) (b : Byte) (f : Bool) (hv : writesVF i = true) :
      ExecEffect i s ((s.advance.setReg x b).setFlag f)
  | jump (p : Word) (hp : p.toNat ≤ 0x10FE) : ExecEffect i s (s.setPc p)
  | delay (x : Reg) (hi : i = .ldDt x) : ExecEffect i s (s.advance.setDt (s.reg x))
  | sound (x : Reg) (hi : i = .ldSt x) : ExecEffect i s (s.advance.setSt (s.reg x))

/-- A 12-bit address is at most 0xFFF as a 16-bit word (R82). -/
theorem address_toNat (nnn : BitVec 12) : (address nnn).toNat = nnn.toNat := by
  simp only [address, BitVec.truncate_eq_setWidth, BitVec.toNat_setWidth]
  omega

/-- A glyph address is 5 times the low nibble past FONT_BASE (R152). -/
theorem glyphAddress_toNat (b : Byte) : (glyphAddress b).toNat = fontBase + 5 * (b.toNat % 16) := by
  simp only [glyphAddress, fontBase]
  revert b
  decide

/-- Every next state of an instruction has one of the shapes. -/
theorem exec_effect {i : Instr} {s t : State} (h : exec i s = .next t) : ExecEffect i s t := by
  cases i
  case drw =>
    rcases execDrw_next h with ⟨_, rfl⟩ | ⟨_, _, _, _, rfl⟩
    · exact .draw _ _ _ rfl
    · exact .fault _
  case ldLoad =>
    rcases execLdLoad_next h with ⟨_, rfl⟩ | ⟨_, _, _, _, rfl⟩
    · exact .load _ rfl
    · exact .fault _
  case ldStore =>
    rcases storeAtIWith_next h with ⟨hw, rfl⟩ | ⟨_, _, _, _, rfl⟩
    · exact .store _ _ (.inr rfl) hw
    · exact .fault _
  case ldB =>
    rcases storeAtIWith_next h with ⟨hw, rfl⟩ | ⟨_, _, _, _, rfl⟩
    · exact .store _ _ (.inl rfl) hw
    · exact .fault _
  case ret =>
    rcases execRet_next h with ⟨hs, rfl⟩ | ⟨_, rfl⟩
    · exact .ret rfl hs
    · exact .fault _
  case call =>
    rcases execCall_next h with ⟨hs, rfl⟩ | ⟨_, rfl⟩
    · exact .call _ rfl hs
    · exact .fault _
  case skp =>
    rcases finishKeySkip_next h with ⟨_, _, rfl⟩ | ⟨_, rfl⟩
    · exact .skip _ rfl
    · exact .fault _
  case sknp =>
    rcases finishKeySkip_next h with ⟨_, _, rfl⟩ | ⟨_, rfl⟩
    · exact .skip _ rfl
    · exact .fault _
  case addI =>
    rcases addIWith_next h with ⟨_, hw, rfl⟩ | ⟨_, _, rfl⟩
    · exact .index _ hw (.inr ⟨_, .inl rfl⟩)
    · exact .fault _
  case ldVxK =>
    rcases execLdVxK_next h with ⟨_, _, rfl⟩ | ⟨hk, rfl⟩
    · exact .reg _ _ rfl
    · exact .wait _ rfl hk
  case seImm => rw [finishSkip_next h]; exact .skip _ rfl
  case sneImm => rw [finishSkip_next h]; exact .skip _ rfl
  case seReg => rw [finishSkip_next h]; exact .skip _ rfl
  case sneReg => rw [finishSkip_next h]; exact .skip _ rfl
  case cls => cases h; exact .clear rfl
  case jp nnn => cases h; exact .jump _ (by rw [address_toNat]; omega)
  case jpV0 nnn =>
    cases h
    refine .jump _ ?_
    simp only [BitVec.toNat_add, address_toNat, BitVec.truncate_eq_setWidth, BitVec.toNat_setWidth]
    omega
  case ldI nnn => cases h; exact .index _ (by rw [address_toNat]; omega) (.inl ⟨_, rfl⟩)
  case ldF x =>
    cases h
    refine .index _ ?_ (.inr ⟨_, .inr rfl⟩)
    rw [glyphAddress_toNat]
    simp only [fontBase]
    omega
  case rnd => cases h; exact .random _ _ rfl
  case ldDt => cases h; exact .delay _ rfl
  case ldSt => cases h; exact .sound _ rfl
  case addReg => cases h; exact .regFlag _ _ _ rfl
  case sub => cases h; exact .regFlag _ _ _ rfl
  case shr => cases h; exact .regFlag _ _ _ rfl
  case subn => cases h; exact .regFlag _ _ _ rfl
  case shl => cases h; exact .regFlag _ _ _ rfl
  all_goals cases h; exact .reg _ _ rfl

/-! ### The shared operations of the sprite and of the register store -/

/-- A sprite touches a pixel exactly where one of its 1 bits is drawn on it (R101). -/
theorem spriteTouches_iff (s : State) (x y : Reg) (n : Nat) (px : Fin 64) (py : Fin 32) :
    SpriteTouches s x y n px py ↔ ∃ r, ∃ hr : r < (s.mem.readBytes s.ea n).length, ∃ col < 8,
      (s.mem.readBytes s.ea n)[r].getLsbD (7 - col) = true ∧ px = pixelX (spriteX (s.reg x)) col ∧
        py = pixelY (spriteY (s.reg y)) (0 + r) := by
  simp only [SpriteTouches, Memory.getElem_readBytes, Memory.length_readBytes, exists_prop, pixelX, pixelY, Fin.ext_iff,
    spriteX, spriteY, State.ea, Nat.zero_add]
  constructor
  · rintro ⟨r, c, h1, h2, h3⟩
    exact ⟨r, h1, c, h2, h3⟩
  · rintro ⟨r, h1, c, h2, h3⟩
    exact ⟨r, c, h1, h2, h3⟩

/-- DXYN's loops invert exactly the pixels its sprite touches, and note a lit one among them (R101). -/
theorem State.drawSprite_draws (s : State) (x y : Reg) (n : Fin 16) :
    Canvas.Draws ⟨s.fb, false⟩ (s.drawSprite x y n) (SpriteTouches s x y n) := by
  have h := Canvas.drawRows_draws (spriteX (s.reg x)) (spriteY (s.reg y)) (s.mem.readBytes s.ea n) 0 ⟨s.fb, false⟩
    (by rw [Memory.length_readBytes]; omega)
  have e : SpriteTouches s x y n = _ := funext₂ fun px py => propext (spriteTouches_iff s x y n px py)
  rw [e]
  exact h

/-- The k-th byte of a register store reads as V[k] (R154). -/
theorem Memory.read_storedRegs (s : State) (x r : Reg) (hr : r ≤ x) :
    (s.mem.writeBytes s.ea (s.regsUpTo x)).read (s.ea + r.val) = s.reg r := by
  have hr' : r.val ≤ x.val := hr
  rw [Memory.read_writeBytes, dif_pos ⟨by omega, by rw [State.length_regsUpTo]; omega⟩]
  rw [← State.getElem_regsUpTo s x r (by rw [State.length_regsUpTo]; omega)]
  congr 1
  omega

end Sys2Proof.Machine
end

