-- ==== Sys2Proof/Laws/PerInstr.lean ====
section
/-! SUPPORT. A statement for all instructions, made per instruction: the word an instruction encodes to has the fixed bits
of that instruction's row of the opcode table (spec/opcode_table.json, spec/30_encoding.md R81, R84). -/

namespace Sys2Proof.Laws.TableRow

/-- The place of an instruction's row in the opcode table. -/
def rowNumber : Instr → Nat
  | .cls => 0
  | .ret => 1
  | .jp _ => 2
  | .call _ => 3
  | .seImm _ _ => 4
  | .sneImm _ _ => 5
  | .seReg _ _ => 6
  | .ldImm _ _ => 7
  | .addImm _ _ => 8
  | .ldReg _ _ => 9
  | .or _ _ => 10
  | .and _ _ => 11
  | .xor _ _ => 12
  | .addReg _ _ => 13
  | .sub _ _ => 14
  | .shr _ _ => 15
  | .subn _ _ => 16
  | .shl _ _ => 17
  | .sneReg _ _ => 18
  | .ldI _ => 19
  | .jpV0 _ => 20
  | .rnd _ _ => 21
  | .drw _ _ _ => 22
  | .skp _ => 23
  | .sknp _ => 24
  | .ldVxDt _ => 25
  | .ldVxK _ => 26
  | .ldDt _ => 27
  | .ldSt _ => 28
  | .addI _ => 29
  | .ldF _ => 30
  | .ldB _ => 31
  | .ldStore _ => 32
  | .ldLoad _ => 33

/-- The instruction's word is accepted by its own row of the table. -/
def Statement (i : Instr) : Prop := (opcodeRows[rowNumber i]?).any (·.accepts (encode i)) = true

/-- A word whose masked bits are a row's pattern, for the mask of the major opcode alone. -/
theorem mask_major (w : Word) (op : BitVec 4) (h : w.extractLsb' 12 4 = op) : w &&& 0xF000 = op ++ 0#12 := by
  subst h
  ext k hk
  simp only [BitVec.getElem_and, BitVec.getElem_append, BitVec.getElem_extractLsb']
  interval_cases k <;> simp

/-- The same for the mask of the major opcode and the minor opcode n. -/
theorem mask_major_n (w : Word) (op n : BitVec 4) (h : w.extractLsb' 12 4 = op) (hn : w.extractLsb' 0 4 = n) :
    w &&& 0xF00F = op ++ 0#8 ++ n := by
  subst h hn
  ext k hk
  simp only [BitVec.getElem_and, BitVec.getElem_append, BitVec.getElem_extractLsb']
  interval_cases k <;> simp

/-- The same for the mask of the major opcode and the minor opcode nn. -/
theorem mask_major_nn (w : Word) (op : BitVec 4) (nn : Byte) (h : w.extractLsb' 12 4 = op)
    (hn : w.extractLsb' 0 8 = nn) : w &&& 0xF0FF = op ++ 0#4 ++ nn := by
  subst h hn
  ext k hk
  simp only [BitVec.getElem_and, BitVec.getElem_append, BitVec.getElem_extractLsb']
  interval_cases k <;> simp

/-! ### One lemma per constructor -/

theorem cls : Statement .cls := by
  unfold Statement
  decide

theorem ret : Statement .ret := by
  unfold Statement
  decide

theorem jp (nnn : BitVec 12) : Statement (.jp nnn) := by
  show (wordNNN 0x1 nnn &&& 0xF000 == 0x1000) = true
  rw [mask_major _ _ (major_wordNNN 0x1 nnn)]
  decide

theorem call (nnn : BitVec 12) : Statement (.call nnn) := by
  show (wordNNN 0x2 nnn &&& 0xF000 == 0x2000) = true
  rw [mask_major _ _ (major_wordNNN 0x2 nnn)]
  decide

theorem seImm (x : Reg) (nn : Byte) : Statement (.seImm x nn) := by
  show (wordXNN 0x3 x nn &&& 0xF000 == 0x3000) = true
  rw [mask_major _ _ (major_wordXNN 0x3 x nn)]
  decide

theorem sneImm (x : Reg) (nn : Byte) : Statement (.sneImm x nn) := by
  show (wordXNN 0x4 x nn &&& 0xF000 == 0x4000) = true
  rw [mask_major _ _ (major_wordXNN 0x4 x nn)]
  decide

theorem seReg (x y : Reg) : Statement (.seReg x y) := by
  show (wordXYN 0x5 x y 0x0 &&& 0xF00F == 0x5000) = true
  rw [mask_major_n _ _ 0x0 (major_wordXYN 0x5 x y 0x0) (minor_wordXYN 0x5 x y 0x0)]
  decide

theorem ldImm (x : Reg) (nn : Byte) : Statement (.ldImm x nn) := by
  show (wordXNN 0x6 x nn &&& 0xF000 == 0x6000) = true
  rw [mask_major _ _ (major_wordXNN 0x6 x nn)]
  decide

theorem addImm (x : Reg) (nn : Byte) : Statement (.addImm x nn) := by
  show (wordXNN 0x7 x nn &&& 0xF000 == 0x7000) = true
  rw [mask_major _ _ (major_wordXNN 0x7 x nn)]
  decide

theorem ldReg (x y : Reg) : Statement (.ldReg x y) := by
  show (wordXYN 0x8 x y 0x0 &&& 0xF00F == 0x8000) = true
  rw [mask_major_n _ _ 0x0 (major_wordXYN 0x8 x y 0x0) (minor_wordXYN 0x8 x y 0x0)]
  decide

theorem or (x y : Reg) : Statement (.or x y) := by
  show (wordXYN 0x8 x y 0x1 &&& 0xF00F == 0x8001) = true
  rw [mask_major_n _ _ 0x1 (major_wordXYN 0x8 x y 0x1) (minor_wordXYN 0x8 x y 0x1)]
  decide

theorem and (x y : Reg) : Statement (.and x y) := by
  show (wordXYN 0x8 x y 0x2 &&& 0xF00F == 0x8002) = true
  rw [mask_major_n _ _ 0x2 (major_wordXYN 0x8 x y 0x2) (minor_wordXYN 0x8 x y 0x2)]
  decide

theorem xor (x y : Reg) : Statement (.xor x y) := by
  show (wordXYN 0x8 x y 0x3 &&& 0xF00F == 0x8003) = true
  rw [mask_major_n _ _ 0x3 (major_wordXYN 0x8 x y 0x3) (minor_wordXYN 0x8 x y 0x3)]
  decide

theorem addReg (x y : Reg) : Statement (.addReg x y) := by
  show (wordXYN 0x8 x y 0x4 &&& 0xF00F == 0x8004) = true
  rw [mask_major_n _ _ 0x4 (major_wordXYN 0x8 x y 0x4) (minor_wordXYN 0x8 x y 0x4)]
  decide

theorem sub (x y : Reg) : Statement (.sub x y) := by
  show (wordXYN 0x8 x y 0x5 &&& 0xF00F == 0x8005) = true
  rw [mask_major_n _ _ 0x5 (major_wordXYN 0x8 x y 0x5) (minor_wordXYN 0x8 x y 0x5)]
  decide

theorem shr (x y : Reg) : Statement (.shr x y) := by
  show (wordXYN 0x8 x y 0x6 &&& 0xF00F == 0x8006) = true
  rw [mask_major_n _ _ 0x6 (major_wordXYN 0x8 x y 0x6) (minor_wordXYN 0x8 x y 0x6)]
  decide

theorem subn (x y : Reg) : Statement (.subn x y) := by
  show (wordXYN 0x8 x y 0x7 &&& 0xF00F == 0x8007) = true
  rw [mask_major_n _ _ 0x7 (major_wordXYN 0x8 x y 0x7) (minor_wordXYN 0x8 x y 0x7)]
  decide

theorem shl (x y : Reg) : Statement (.shl x y) := by
  show (wordXYN 0x8 x y 0xE &&& 0xF00F == 0x800E) = true
  rw [mask_major_n _ _ 0xE (major_wordXYN 0x8 x y 0xE) (minor_wordXYN 0x8 x y 0xE)]
  decide

theorem sneReg (x y : Reg) : Statement (.sneReg x y) := by
  show (wordXYN 0x9 x y 0x0 &&& 0xF00F == 0x9000) = true
  rw [mask_major_n _ _ 0x0 (major_wordXYN 0x9 x y 0x0) (minor_wordXYN 0x9 x y 0x0)]
  decide

theorem ldI (nnn : BitVec 12) : Statement (.ldI nnn) := by
  show (wordNNN 0xA nnn &&& 0xF000 == 0xA000) = true
  rw [mask_major _ _ (major_wordNNN 0xA nnn)]
  decide

theorem jpV0 (nnn : BitVec 12) : Statement (.jpV0 nnn) := by
  show (wordNNN 0xB nnn &&& 0xF000 == 0xB000) = true
  rw [mask_major _ _ (major_wordNNN 0xB nnn)]
  decide

theorem rnd (x : Reg) (nn : Byte) : Statement (.rnd x nn) := by
  show (wordXNN 0xC x nn &&& 0xF000 == 0xC000) = true
  rw [mask_major _ _ (major_wordXNN 0xC x nn)]
  decide

theorem drw (x y : Reg) (n : Fin 16) : Statement (.drw x y n) := by
  show (wordXYN 0xD x y n &&& 0xF000 == 0xD000) = true
  rw [mask_major _ _ (major_wordXYN 0xD x y n)]
  decide

theorem skp (x : Reg) : Statement (.skp x) := by
  show (wordXNN 0xE x 0x9E &&& 0xF0FF == 0xE09E) = true
  rw [mask_major_nn _ _ 0x9E (major_wordXNN 0xE x 0x9E) (fieldNN_wordXNN 0xE x 0x9E)]
  decide

theorem sknp (x : Reg) : Statement (.sknp x) := by
  show (wordXNN 0xE x 0xA1 &&& 0xF0FF == 0xE0A1) = true
  rw [mask_major_nn _ _ 0xA1 (major_wordXNN 0xE x 0xA1) (fieldNN_wordXNN 0xE x 0xA1)]
  decide

theorem ldVxDt (x : Reg) : Statement (.ldVxDt x) := by
  show (wordXNN 0xF x 0x07 &&& 0xF0FF == 0xF007) = true
  rw [mask_major_nn _ _ 0x07 (major_wordXNN 0xF x 0x07) (fieldNN_wordXNN 0xF x 0x07)]
  decide

theorem ldVxK (x : Reg) : Statement (.ldVxK x) := by
  show (wordXNN 0xF x 0x0A &&& 0xF0FF == 0xF00A) = true
  rw [mask_major_nn _ _ 0x0A (major_wordXNN 0xF x 0x0A) (fieldNN_wordXNN 0xF x 0x0A)]
  decide

theorem ldDt (x : Reg) : Statement (.ldDt x) := by
  show (wordXNN 0xF x 0x15 &&& 0xF0FF == 0xF015) = true
  rw [mask_major_nn _ _ 0x15 (major_wordXNN 0xF x 0x15) (fieldNN_wordXNN 0xF x 0x15)]
  decide

theorem ldSt (x : Reg) : Statement (.ldSt x) := by
  show (wordXNN 0xF x 0x18 &&& 0xF0FF == 0xF018) = true
  rw [mask_major_nn _ _ 0x18 (major_wordXNN 0xF x 0x18) (fieldNN_wordXNN 0xF x 0x18)]
  decide

theorem addI (x : Reg) : Statement (.addI x) := by
  show (wordXNN 0xF x 0x1E &&& 0xF0FF == 0xF01E) = true
  rw [mask_major_nn _ _ 0x1E (major_wordXNN 0xF x 0x1E) (fieldNN_wordXNN 0xF x 0x1E)]
  decide

theorem ldF (x : Reg) : Statement (.ldF x) := by
  show (wordXNN 0xF x 0x29 &&& 0xF0FF == 0xF029) = true
  rw [mask_major_nn _ _ 0x29 (major_wordXNN 0xF x 0x29) (fieldNN_wordXNN 0xF x 0x29)]
  decide

theorem ldB (x : Reg) : Statement (.ldB x) := by
  show (wordXNN 0xF x 0x33 &&& 0xF0FF == 0xF033) = true
  rw [mask_major_nn _ _ 0x33 (major_wordXNN 0xF x 0x33) (fieldNN_wordXNN 0xF x 0x33)]
  decide

theorem ldStore (x : Reg) : Statement (.ldStore x) := by
  show (wordXNN 0xF x 0x55 &&& 0xF0FF == 0xF055) = true
  rw [mask_major_nn _ _ 0x55 (major_wordXNN 0xF x 0x55) (fieldNN_wordXNN 0xF x 0x55)]
  decide

theorem ldLoad (x : Reg) : Statement (.ldLoad x) := by
  show (wordXNN 0xF x 0x65 &&& 0xF0FF == 0xF065) = true
  rw [mask_major_nn _ _ 0x65 (major_wordXNN 0xF x 0x65) (fieldNN_wordXNN 0xF x 0x65)]
  decide

end Sys2Proof.Laws.TableRow
end

