-- ==== Sys2Proof/Tests/Slice0.lean ====
section
/-! SUPPORT. The model's own tests. Expected results come from spec/95_test_vectors.md (the vector's name stands in each
comment) or from the rule named. Then the witnesses: for every obligation with hypotheses, a state and operands that meet
them, at the boundary of each clause. -/

namespace Sys2Proof.Tests
open Sys2Proof Sys2Proof.Machine

/-! ### Well-formed words (R85) -/

/-- Each family of R85's list of illegal words is refused. -/
theorem test_illformed_words_refused :
    wordWellFormed 0x0000 = false ∧ wordWellFormed 0x00E1 = false ∧ wordWellFormed 0x5121 = false ∧
    wordWellFormed 0x9999 = false ∧ wordWellFormed 0x8008 = false ∧ wordWellFormed 0x800D = false ∧
    wordWellFormed 0x800F = false ∧ wordWellFormed 0xE0A2 = false ∧ wordWellFormed 0xF000 = false ∧
    wordWellFormed 0xF0FF = false := by decide

theorem test_wellformed_words_accepted :
    wordWellFormed 0x00E0 = true ∧ wordWellFormed 0x00EE = true ∧ wordWellFormed 0x5120 = true ∧
    wordWellFormed 0x800E = true ∧ wordWellFormed 0xE0A1 = true ∧ wordWellFormed 0xF065 = true := by decide

/-- The 34 rows (R84) are pairwise disjoint: no word has the fixed bits of two. -/
theorem test_opcode_rows_disjoint :
    opcodeRows.length = 34 ∧ opcodeRows.Pairwise fun r q => r.disjoint q = true := by decide

/-! ### Decoding: one word per constructor, written out bit by bit from its rule's encoding -/

theorem test_decode_display : decodeWord 0b0000_0000_1110_0000 = some .cls ∧
    decodeWord 0b1101_1011_1100_0101 = some (.drw 0xB 0xC 5) := by decide

theorem test_decode_control : decodeWord 0b0000_0000_1110_1110 = some .ret ∧
    decodeWord 0b0001_0010_0011_0100 = some (.jp 0x234) ∧
    decodeWord 0b0010_0010_0000_0110 = some (.call 0x206) ∧
    decodeWord 0b1011_0011_0000_0000 = some (.jpV0 0x300) := by decide

theorem test_decode_skips : decodeWord 0b0011_0011_0100_0010 = some (.seImm 3 0x42) ∧
    decodeWord 0b0100_0011_0100_0010 = some (.sneImm 3 0x42) ∧
    decodeWord 0b0101_0001_0010_0000 = some (.seReg 1 2) ∧
    decodeWord 0b1001_0001_0010_0000 = some (.sneReg 1 2) ∧
    decodeWord 0b1110_0101_1001_1110 = some (.skp 5) ∧
    decodeWord 0b1110_0101_1010_0001 = some (.sknp 5) := by decide

theorem test_decode_loads : decodeWord 0b0110_1010_0000_0101 = some (.ldImm 0xA 0x05) ∧
    decodeWord 0b0111_0001_0000_0010 = some (.addImm 1 0x02) ∧
    decodeWord 0b1000_0001_0010_0000 = some (.ldReg 1 2) ∧
    decodeWord 0b1100_0011_0000_1111 = some (.rnd 3 0x0F) := by decide

theorem test_decode_alu : decodeWord 0b1000_0001_0010_0001 = some (.or 1 2) ∧
    decodeWord 0b1000_0001_0010_0010 = some (.and 1 2) ∧
    decodeWord 0b1000_0001_0010_0011 = some (.xor 1 2) ∧
    decodeWord 0b1000_0001_0010_0100 = some (.addReg 1 2) ∧
    decodeWord 0b1000_0001_0010_0101 = some (.sub 1 2) ∧
    decodeWord 0b1000_0001_0010_0110 = some (.shr 1 2) ∧
    decodeWord 0b1000_0001_0010_0111 = some (.subn 1 2) ∧
    decodeWord 0b1000_0001_0010_1110 = some (.shl 1 2) := by decide

theorem test_decode_index_memory : decodeWord 0b1010_0011_0000_0000 = some (.ldI 0x300) ∧
    decodeWord 0b1111_0010_0001_1110 = some (.addI 2) ∧
    decodeWord 0b1111_0001_0010_1001 = some (.ldF 1) ∧
    decodeWord 0b1111_0100_0011_0011 = some (.ldB 4) ∧
    decodeWord 0b1111_0010_0101_0101 = some (.ldStore 2) ∧
    decodeWord 0b1111_0010_0110_0101 = some (.ldLoad 2) := by decide

theorem test_decode_timers_keys : decodeWord 0b1111_0011_0000_0111 = some (.ldVxDt 3) ∧
    decodeWord 0b1111_0101_0000_1010 = some (.ldVxK 5) ∧
    decodeWord 0b1111_0000_0001_0101 = some (.ldDt 0) ∧
    decodeWord 0b1111_0100_0001_1000 = some (.ldSt 4) := by decide

/-- Vector E-1: the words the decoder does not know. -/
theorem test_decode_unknown : [0x0000, 0x0123, 0x00E1, 0x5121, 0x8008, 0x800F, 0x9999, 0xE0A2, 0xF000, 0xF0FF].all
    (fun w : Word => decodeWord w == none) = true := by decide

theorem test_decode_bytes : decode [0x6A, 0x05, 0x12] = .ok (.ldImm 0xA 0x05, [0x12]) ∧
    decode [0x99, 0x99] = .error (.unknownOpcode 0x9999) ∧ decode [0x6A] = .error .truncated := by
  exact ⟨rfl, rfl, rfl⟩

theorem test_decode_table_word : decodeTableWord 16 0xD015 = some (.drw 0 1 5) ∧ encode (.drw 0 1 5) = 0xD015 ∧
    encode (.shr 1 2) = 0x8126 ∧ encode (.ldStore 0xF) = 0xFF55 := by decide

/-! ### Instructions, one step each -/

/-- The state after reset with an instruction word at 0x200 (the start state of spec/95_test_vectors.md). -/
def start (w : Word) : State := State.reset.placeWord w

/-- The same with two registers set. -/
def start2 (w : Word) (x : Reg) (a : Byte) (y : Reg) (b : Byte) : State := ((start w).setReg x a).setReg y b

/-- D-1: 00E0 on a lit pixel. -/
theorem test_cls : let t := ((start 0x00E0).setFrame (Frame.blank.put 3 3 true)).afterStep
    (t.fb.get 3 3, t.redraw, t.pc) = (false, true, 0x202) := by decide

/-- D-4: the x coordinate comes from the old VF and wraps. -/
theorem test_drw_wraps : let t := (((start 0xDF01).setI 0x300).setMem
      ((start 0xDF01).mem.write 0x300 0xC0)).setReg 0xF 0x3F |>.afterStep
    (t.fb.get 63 0, t.fb.get 0 0, t.fb.get 1 0, t.reg 0xF, t.redraw, t.pc) = (true, true, false, 0, true, 0x202) := by
  decide

/-- D-5: a 0 bit leaves its pixel; a 1 bit on a lit pixel collides. -/
theorem test_drw_collides : let t := (((start 0xD011).setI 0x300).setMem
      ((start 0xD011).mem.write 0x300 0x80)).setFrame ((Frame.blank.put 0 0 true).put 1 0 true) |>.afterStep
    (t.fb.get 0 0, t.fb.get 1 0, t.reg 0xF) = (false, true, 1) := by decide

/-- C-6: the popped entry keeps its value. -/
theorem test_ret : let t := (((start 0x00EE).push 0x202)).afterStep
    (t.pc, t.sp, t.stack.get 0, t.fault) = (0x202, 0, 0x202, none) := by decide

/-- C-7, S9. -/
theorem test_ret_underflow : (start 0x00EE).afterStep.fault =
    some ⟨.stackUnderflow, 0x200, some 0x00EE, none, none⟩ := by decide

/-- C-1. -/
theorem test_jp : (start 0x1234).afterStep.pc = 0x234 := by decide

/-- C-3. -/
theorem test_call : let t := (start 0x2206).afterStep
    (t.pc, t.sp, t.stack.get 0, t.stack.get 1) = (0x206, 1, 0x202, 0) := by decide

/-- C-4: a full stack. -/
theorem test_call_overflow : let t := ({ start 0x2300 with sp := 16 } : State).afterStep
    (t.pc, t.sp, t.fault) = (0x200, 16, some ⟨.stackOverflow, 0x200, some 0x2300, none, none⟩) := by decide

/-- C-9: the sum is not masked. -/
theorem test_jpV0 : ((start 0xBFFF).setReg 0 0xFF).afterStep.pc = 0x10FE := by decide

/-- K-1 to K-4. -/
theorem test_skip_imm : (((start 0x3342).setReg 3 0x42).afterStep.pc, ((start 0x3342).setReg 3 0x41).afterStep.pc,
    ((start 0x4342).setReg 3 0x41).afterStep.pc, ((start 0x4342).setReg 3 0x42).afterStep.pc) =
    (0x204, 0x202, 0x204, 0x202) := by decide

/-- K-5 to K-8. -/
theorem test_skip_reg : ((start2 0x5120 1 7 2 7).afterStep.pc, (start2 0x5120 1 7 2 8).afterStep.pc,
    (start2 0x9120 1 7 2 8).afterStep.pc, (start2 0x9120 1 7 2 7).afterStep.pc) = (0x204, 0x202, 0x204, 0x202) := by
  decide

/-- K-11 to K-14. -/
theorem test_skip_key : let s := (start 0xE59E).setReg 5 7
    let u := (start 0xE5A1).setReg 5 7
    ((s.keyset 7 true).afterStep.pc, s.afterStep.pc, u.afterStep.pc, (u.keyset 7 true).afterStep.pc) =
      (0x204, 0x202, 0x204, 0x202) := by decide

/-- K-15, K-16: the two values of KEY_INDEX_OOR. -/
theorem test_key_index : (keyIndexWith .lowNibble 0x17, keyIndexWith .fault 0x17, keyIndexWith .fault 0x0F) =
    (some 7, none, some 0xF) := by decide

/-- S1. -/
theorem test_ldImm : let t := (start 0x6A05).afterStep
    (t.reg 0xA, t.pc) = (0x05, 0x202) := by decide

/-- A-2: no carry flag. -/
theorem test_addImm : let t := (start2 0x7102 1 0xFF 0xF 0x55).afterStep
    (t.reg 1, t.reg 0xF) = (0x01, 0x55) := by decide

/-- A-5. -/
theorem test_ldReg : (start2 0x8120 1 0 2 0x33).afterStep.reg 1 = 0x33 := by decide

/-- A-6 to A-8, VF kept. -/
theorem test_logic : ((start2 0x8121 1 0x0F 2 0xF0).afterStep.reg 1, (start2 0x8122 1 0x3C 2 0x0F).afterStep.reg 1,
    (start2 0x8123 1 0x3C 2 0x0F).afterStep.reg 1, ((start2 0x8121 1 0x0F 2 0xF0).setReg 0xF 0x55).afterStep.reg 0xF) =
    (0xFF, 0x0C, 0x33, 0x55) := by decide

/-- A-10. -/
theorem test_addReg : let t := (start2 0x8124 1 0xFF 2 0x01).afterStep
    (t.reg 1, t.reg 0xF) = (0x00, 1) := by decide

/-- A-14, A-15: VF as destination takes the carry; VF as source is read before it is written. -/
theorem test_addReg_vf : ((start2 0x8F14 0xF 0x10 1 0x20).afterStep.reg 0xF,
    (start2 0x81F4 0xF 0x10 1 0x20).afterStep.reg 1, (start2 0x81F4 0xF 0x10 1 0x20).afterStep.reg 0xF) =
    (0, 0x30, 0) := by decide

/-- A-16, A-17. -/
theorem test_sub : let t := (start2 0x8125 1 5 2 5).afterStep
    let u := (start2 0x8125 1 4 2 5).afterStep
    (t.reg 1, t.reg 0xF, u.reg 1, u.reg 0xF) = (0, 1, 0xFF, 0) := by decide

/-- A-23, A-24: Y is ignored; the old bit 0 wins. -/
theorem test_shr : let t := (start2 0x8126 1 0x04 2 0xFF).afterStep
    (t.reg 1, t.reg 0xF, ((start 0x8F06).setReg 0xF 2).afterStep.reg 0xF) = (2, 0, 0) := by decide

/-- A-25, A-26. -/
theorem test_subn : let t := (start2 0x8127 1 5 2 4).afterStep
    let u := (start2 0x8127 1 4 2 5).afterStep
    (t.reg 1, t.reg 0xF, u.reg 1, u.reg 0xF) = (0xFF, 0, 1, 1) := by decide

/-- A-27, A-29. -/
theorem test_shl : let t := ((start 0x810E).setReg 1 0x81).afterStep
    let u := ((start 0x810E).setReg 1 0x7F).afterStep
    (t.reg 1, t.reg 0xF, u.reg 1, u.reg 0xF) = (2, 1, 0xFE, 0) := by decide

/-- A-31, A-32: RND for the random input 0xA7. -/
theorem test_rnd : (match rndWith 0xA7 3 0x0F State.reset, rndWith 0xA7 3 0x00 State.reset with
    | .next t, .next u => (t.reg 3, t.pc, u.reg 3)
    | _, _ => (0xFF, 0, 0xFF)) = (0x07, 0x202, 0x00) := by decide

/-- M-1. -/
theorem test_ldI : (start 0xA300).afterStep.i = 0x300 := by decide

/-- M-2, M-3: no overflow, under either value of FX1E_OVERFLOW. -/
theorem test_addI : (((start 0xF21E).setI 0x300).setReg 2 0x10 |>.afterStep.i,
    ((start 0xF21E).setI 0xF00).setReg 2 0xFF |>.afterStep.i) = (0x310, 0xFFF) := by decide

/-- M-6, M-7: overflow under the two values. -/
theorem test_addI_overflow : (match addIWith .wrap12 2 ((State.reset.setI 0xF80).setReg 2 0xFF),
      addIWith .fault 2 ((State.reset.setI 0xF80).setReg 2 0xFF) with
    | .next t, .next u => (t.i, u.i, u.fault)
    | _, _ => (0, 0, none)) =
      (0x07F, 0xF80, some ⟨.memoryFault, 0x200, some 0xF21E, some 0x107F, none⟩) := by decide

/-- M-8. -/
theorem test_ldF : [0x00, 0x05, 0x0F, 0x3A, 0xFF].map (fun b => ((start 0xF129).setReg 1 b).afterStep.i) =
    [0x000, 0x019, 0x04B, 0x032, 0x04B] := by decide

/-- S5. -/
theorem test_ldB : let t := (((start 0xF433).setI 0x300).setReg 4 157).afterStep
    (t.mem.readBytes 0x300 3, t.i, t.pc) = ([1, 5, 7], 0x300, 0x202) := by decide

/-- M-10, M-11, and M-12 for RESERVED_WRITE_FAULT = false. -/
theorem test_ldB_faults : (((start 0xF433).setI 0xFFE).afterStep.fault, ((start 0xF433).setI 0x1FF).afterStep.fault,
    firstBad (writeOkWith false) 0x1FF 3) =
    (some ⟨.memoryFault, 0x200, some 0xF433, some 0x1000, none⟩,
      some ⟨.memoryFault, 0x200, some 0xF433, some 0x1FF, none⟩, none) := by decide

/-- R154's example. -/
theorem test_ldStore : let t := ((((start 0xF255).setI 0x300).setReg 0 1).setReg 1 2).setReg 2 3 |>.afterStep
    (t.mem.readBytes 0x300 4, t.i) = ([1, 2, 3, 0], 0x300) := by decide

/-- M-14. -/
theorem test_ldStore_faults : let t := (((start 0xF355).setI 0xFFD).setReg 0 9).afterStep
    (t.fault, t.mem.read 0xFFD) = (some ⟨.memoryFault, 0x200, some 0xF355, some 0x1000, none⟩, 0) := by decide

/-- R155's example. -/
theorem test_ldLoad : let t := (((start 0xF265).setI 0x300).setMem
      ((start 0xF265).mem.writeBytes 0x300 [0, 1, 5, 9])).afterStep
    (t.reg 0, t.reg 1, t.reg 2, t.reg 3) = (0, 1, 5, 0) := by decide

/-- M-17: no register written. -/
theorem test_ldLoad_faults : let t := (((start 0xF365).setI 0xFFD).setReg 0 7).afterStep
    (t.fault, t.reg 0) = (some ⟨.memoryFault, 0x200, some 0xF365, some 0x1000, none⟩, 7) := by decide

/-- T-1. -/
theorem test_ldVxDt : ((start 0xF307).setDt 0x3C).afterStep.reg 3 = 0x3C := by decide

/-- T-7, T-8. -/
theorem test_ldVxK : let s := (start 0xF50A)
    let t := ((s.keyset 9 true).keyset 3 true).afterStep
    (t.reg 5, t.pc, s.afterStep.pc, s.stepStatus, ((s.keyset 9 true).keyset 3 true).stepStatus) =
      (3, 0x202, 0x200, .waitingForKey, .executed) := by decide

/-- T-2. -/
theorem test_ldDt : let t := ((start 0xF015).setReg 0 10).afterStep
    (t.dt, t.tick.dt) = (10, 9) := by decide

/-- T-3: ST = 2, two ticks. -/
theorem test_ldSt : let t := ((start 0xF418).setReg 4 2).afterStep
    (t.st, t.toneActive, t.toneTrigger, t.tick.toneTrigger, t.tick.tick.toneActive, t.tick.tick.toneTrigger) =
      (2, true, false, true, false, false) := by decide

/-! ### Fetch, halt, INIT and LOAD -/

/-- E-3, E-4. -/
theorem test_fetch_faults : ((State.reset.setPc 0xFFF).afterStep.fault, (State.reset.setPc 0x1000).afterStep.fault) =
    (some ⟨.memoryFault, 0xFFF, none, some 0x1000, none⟩, some ⟨.memoryFault, 0x1000, none, some 0x1000, none⟩) := by
  decide

/-- E-6: an odd PC. -/
theorem test_odd_pc : let t := ((State.reset.setPc 0x201).placeWord 0x6A05).afterStep
    (t.reg 0xA, t.pc) = (0x05, 0x203) := by decide

/-- E-7: no ROM. -/
theorem test_no_rom : State.reset.afterStep.fault = some ⟨.unknownOpcode, 0x200, some 0x0000, none, none⟩ := by decide

/-- S10: the halt stays, and INIT leaves it. -/
theorem test_unknown_halts : let t := (start 0x9999).afterStep
    (t.stepStatus, t.tick.fault, t.initialize.fault, t.initialize.pc, t.initialize.mem.read 0x200) =
      (.faulted ⟨.unknownOpcode, 0x200, some 0x9999, none, none⟩, t.fault, none, 0x200, 0) := by decide

/-- E-9: the first font bytes (G1), and the glyph 5 of program P4. -/
theorem test_font : (State.reset.mem.readBytes 0 5, State.reset.mem.readBytes 0x19 5, fontData.length) =
    ([0xF0, 0x90, 0x90, 0x90, 0xF0], [0xF0, 0x80, 0xF0, 0x10, 0xF0], 80) := by decide

/-- E-11: no zero-fill. -/
theorem test_load : let t := (State.reset.setMem (State.reset.mem.write 0x300 0x77)).load [0x12, 0x34]
    (t.1.mem.read 0x200, t.1.mem.read 0x201, t.1.mem.read 0x300, t.2) = (0x12, 0x34, 0x77, .ok) := by decide

/-- S7, first step: the 14 pixels of glyph 0 (G1, G2), by rows. -/
theorem test_drw_glyph : let t := (start 0xD015).afterStep
    ((List.finRange 5).map fun y => (List.finRange 5).map fun x =>
        t.fb.get (x.castLE (by decide)) (y.castLE (by decide))) =
      [[true, true, true, true, false], [true, false, false, true, false], [true, false, false, true, false],
        [true, false, false, true, false], [true, true, true, true, false]] := by decide

/-- Writing the byte an address holds after reset lists nothing (the canonical form). -/
theorem test_memory_canonical : Memory.write [] 0x300 0 = [] ∧ Memory.write [] 0 0xF0 = [] ∧
    Memory.write [(0x300, 5)] 0x300 0 = [] ∧ Memory.write [(0x300, 5)] 0x2FF 1 = [(0x2FF, 1), (0x300, 5)] := by decide

/-! ### Witnesses: the hypotheses of each obligation are met, at the boundary of each clause -/

/-- A word that decodes, and words that do not (DecodeOfEncodeGivesTheInstruction, IllegalWordsAreThoseListed). -/
theorem witness_decode : decodeWord 0x6A05 = some (.ldImm 0xA 0x05) ∧ decodeWord 0x0FFF = none ∧
    decodeWord 0x1000 = some (.jp 0) ∧ decodeWord 0x800E = some (.shl 0 0) ∧ decodeWord 0x800F = none := by decide

/-- StepRunsTheDecodedInstruction, at 0x200 and at the last address a fetch can start from. -/
theorem witness_stepRuns :
    (let s := start 0x6A05
     s.fault = none ∧ s.pc.toNat ≤ 0xFFE ∧
       decodeWord (wordOfBytes (s.mem.read s.pc.toNat) (s.mem.read (s.pc.toNat + 1))) = some (.ldImm 0xA 0x05)) ∧
    (let s := (State.reset.setPc 0xFFE).placeWord 0x6A05
     s.fault = none ∧ s.pc.toNat ≤ 0xFFE ∧
       decodeWord (wordOfBytes (s.mem.read s.pc.toNat) (s.mem.read (s.pc.toNat + 1))) = some (.ldImm 0xA 0x05)) := by
  decide

/-- FetchIsBigEndian and FetchOutsideTheBankFaults: PC at 0xFFE, 0xFFF, 0x1000 and 0x10FE. -/
theorem witness_fetch : (State.reset.setPc 0xFFE).pc.toNat ≤ 0xFFE ∧ (State.reset.setPc 0xFFF).fault = none ∧
    (State.reset.setPc 0xFFF).pc.toNat = 0xFFF ∧ 0x1000 ≤ (State.reset.setPc 0x1000).pc.toNat ∧
    0x1000 ≤ (State.reset.setPc 0x10FE).pc.toNat := by decide

/-- UnknownWordHaltsTheMachine. -/
theorem witness_unknownWord : (start 0x9999).fault = none ∧ fetch (start 0x9999) = .ok 0x9999 ∧
    decodeWord 0x9999 = none := ⟨rfl, rfl, by decide⟩

/-- FaultIsStickyUntilInit, and a transaction that is not INIT. -/
theorem witness_sticky : (start 0x9999).afterStep.fault = some ⟨.unknownOpcode, 0x200, some 0x9999, none, none⟩ ∧
    Transaction.tick ≠ .init := by decide

/-- FaultsArePrecise: a fault of an instruction, whose fetch succeeds, and a fault of the fetch. -/
theorem witness_precise :
    (∃ t r, step (start 0x00EE) = .next t ∧ (start 0x00EE).fault = none ∧ t.fault = some r ∧
      fetch (start 0x00EE) = .ok 0x00EE) ∧
    ∃ t r, step (State.reset.setPc 0xFFF) = .next t ∧ (State.reset.setPc 0xFFF).fault = none ∧ t.fault = some r ∧
      fetch (State.reset.setPc 0xFFF) = .error 0x1000 :=
  ⟨⟨_, _, rfl, rfl, rfl, rfl⟩, _, _, rfl, rfl, rfl, rfl⟩

/-- A state whose I is one below the end of the bank, with a full stack. -/
def edge : State := { State.reset with i := 0xFFF, sp := 16 }

/-- EachFaultKindHasItsInstructions: each kind an instruction raises. -/
theorem witness_faultKinds :
    (∃ t r, exec .ret State.reset = .next t ∧ t.fault = some r ∧ r.kind = .stackUnderflow) ∧
    (∃ t r, exec (.call 0x300) edge = .next t ∧ t.fault = some r ∧ r.kind = .stackOverflow) ∧
    (∃ t r, exec (.drw 0 0 2) edge = .next t ∧ t.fault = some r ∧ r.kind = .memoryFault) ∧
    (∃ t r, exec (.ldB 0) edge = .next t ∧ t.fault = some r ∧ r.kind = .memoryFault) ∧
    (∃ t r, exec (.ldStore 1) edge = .next t ∧ t.fault = some r ∧ r.kind = .memoryFault) ∧
    ∃ t r, exec (.ldLoad 1) edge = .next t ∧ t.fault = some r ∧ r.kind = .memoryFault :=
  ⟨⟨_, _, rfl, rfl, rfl⟩, ⟨_, _, rfl, rfl, rfl⟩, ⟨_, _, rfl, rfl, rfl⟩, ⟨_, _, rfl, rfl, rfl⟩, ⟨_, _, rfl, rfl, rfl⟩,
    _, _, rfl, rfl, rfl⟩

/-- The kinds of a fault that only one value of an OPEN parameter allows, under that value. -/
theorem witness_faultKinds_open :
    (Config.keyIndexOor = .fault → ∃ t r, exec (.skp 0) (State.reset.setReg 0 0x10) = .next t ∧ t.fault = some r ∧
      r.kind = .keyIndexFault) ∧
    (Config.fx1eOverflow = .fault → ∃ t r, exec (.addI 0) (edge.setReg 0 1) = .next t ∧ t.fault = some r ∧
      r.kind = .memoryFault) := by
  refine ⟨fun h => ?_, fun h => ?_⟩
  · refine ⟨(State.reset.setReg 0 0x10).takeFault (some 0xE09E) (.keyIndex 0x10), _, ?_, rfl, rfl⟩
    show execSkp 0 _ = _
    rw [execSkp, finishKeySkip, show keyIndex ((State.reset.setReg 0 0x10).reg 0) = none by rw [keyIndex, h]; rfl]
    rfl
  · refine ⟨(edge.setReg 0 1).takeFault (some 0xF01E) (.memory 0x1000), _, ?_, rfl, rfl⟩
    show execAddI 0 _ = _
    rw [execAddI, h]
    rfl

/-- DrwXorsTheSpriteAndSetsCollision: glyph 0 on a blank screen (no collision), on a lit one (collision), fifteen rows up
to 0xFFF, and no row. -/
theorem witness_drw :
    (∀ row < 5, Readable (State.reset.ea + row)) ∧ SpriteTouches State.reset 0 0 5 0 0 ∧
    State.reset.fb.get 0 0 = false ∧
    ¬ SpriteTouches State.reset 0 0 0 0 0 ∧
    ((State.reset.setFrame (Frame.blank.put 0 0 true)).fb.get 0 0 = true ∧
      SpriteTouches (State.reset.setFrame (Frame.blank.put 0 0 true)) 0 0 5 0 0) ∧
    ∀ row < 15, Readable ((State.reset.setI 0xFF1).ea + row) := by
  refine ⟨?_, ⟨0, 0, by decide⟩, by decide, ?_, ⟨by decide, 0, 0, by decide⟩, ?_⟩
  · unfold Readable; decide
  · rintro ⟨row, _, h, _⟩; omega
  · unfold Readable; decide

/-- ReadsFaultAtTheLowestAddress: at the first read and at a later one, for DXYN and FX65. -/
theorem witness_readsFault :
    ((∀ j < 1, Readable ((State.reset.setI 0xFFF).ea + j)) ∧ ¬ Readable ((State.reset.setI 0xFFF).ea + 1) ∧
      1 < (2 : Fin 16).val ∧ 1 ≤ (1 : Reg).val) ∧
    ((∀ j < 0, Readable ((State.reset.setI 0x1000).ea + j)) ∧ ¬ Readable ((State.reset.setI 0x1000).ea + 0)) ∧
    (∀ j < 14, Readable ((State.reset.setI 0xFF2).ea + j)) ∧ ¬ Readable ((State.reset.setI 0xFF2).ea + 14) := by
  unfold Readable; decide

/-- WritesFaultAtTheLowestAddress: above the bank and in the reserved region, for FX33 and FX55. -/
theorem witness_writesFault :
    ((∀ j < 2, Writable ((State.reset.setI 0xFFE).ea + j)) ∧ ¬ Writable ((State.reset.setI 0xFFE).ea + 2) ∧
      2 ≤ (2 : Reg).val) ∧
    ((∀ j < 0, Writable ((State.reset.setI 0x1FF).ea + j)) ∧ ¬ Writable ((State.reset.setI 0x1FF).ea + 0)) ∧
    (∀ j < 15, Writable ((State.reset.setI 0xFF1).ea + j)) ∧ ¬ Writable ((State.reset.setI 0xFF1).ea + 15) := by
  unfold Writable; decide

/-- RetPopsTheStack and CallPushesTheReturnAddress: the lowest and the highest stack pointer of each clause. -/
theorem witness_stack : ({ State.reset with sp := 1 } : State).sp = (0 : Fin 16).succ ∧
    edge.sp = (15 : Fin 16).succ ∧ State.reset.sp = 0 ∧ State.reset.sp = (0 : Fin 16).castSucc ∧
    ({ State.reset with sp := 15 } : State).sp = (15 : Fin 16).castSucc ∧ edge.sp = 16 := by decide

/-- RegisterSkipsCompareRegisters: low nibbles that are not 0, and a fetch of such a word. -/
theorem witness_registerSkips : (1 : Fin 16) ≠ 0 ∧ (15 : Fin 16) ≠ 0 ∧ (start 0x5121).fault = none ∧
    fetch (start 0x5121) = .ok (wordXYN 0x5 1 2 1) ∧ fetch (start 0x912F) = .ok (wordXYN 0x9 1 2 15) :=
  ⟨by decide, by decide, rfl, rfl, rfl⟩

/-- KeySkipsTestTheLatch: the highest key index, the first above it, and the highest byte. -/
theorem witness_keySkips : ((State.reset.setReg 5 0xF).reg 5).toNat = (15 : Reg).val ∧
    0xF < ((State.reset.setReg 5 0x10).reg 5).toNat ∧ (0 : Reg).val = ((State.reset.setReg 5 0x10).reg 5).toNat % 16 ∧
    0xF < ((State.reset.setReg 5 0xFF).reg 5).toNat ∧ (15 : Reg).val = ((State.reset.setReg 5 0xFF).reg 5).toNat % 16 := by
  decide

/-- AddSetsCarry, SubtractionsSetNoBorrow, ShiftsSetTheBitShiftedOut and the loads: a register that is not VF, and another
one. -/
theorem witness_registers : (14 : Reg) ≠ 15 ∧ (0 : Reg) ≠ 14 ∧ (0 : Reg) ≠ 15 := by decide

/-- AddSetsCarry: the sums 255 and 256. -/
theorem witness_addReg : ¬ 255 < ((start2 0x8124 1 0xFE 2 1).reg 1).toNat + ((start2 0x8124 1 0xFE 2 1).reg 2).toNat ∧
    255 < ((start2 0x8124 1 0xFF 2 1).reg 1).toNat + ((start2 0x8124 1 0xFF 2 1).reg 2).toNat := by decide

/-- AddIAddsVxToTheIndex: the sums 0xFFF and 0x1000. -/
theorem witness_addI : (State.reset.setI 0xFFF).i.toNat + ((State.reset.setI 0xFFF).reg 2).toNat ≤ 0xFFF ∧
    0xFFF < ((State.reset.setI 0xFFF).setReg 2 1).i.toNat + (((State.reset.setI 0xFFF).setReg 2 1).reg 2).toNat := by
  decide

/-- LdBStoresTheDigits: the lowest and the highest I, and addresses next to the three bytes. -/
theorem witness_ldB : (∀ k < 3, Writable ((State.reset.setI 0x200).ea + k)) ∧
    (∀ k < 3, Writable ((State.reset.setI 0xFFD).ea + k)) ∧
    0x1FF < (State.reset.setI 0x200).ea ∧ (State.reset.setI 0x200).ea + 2 < 0x203 := by
  unfold Writable; decide

/-- LdStoreStoresV0ToVx, StoreThenLoadRestoresTheRegisters and StoredBytesAreFetched: all sixteen registers at the lowest
and the highest I, one register at the highest I, and two adjacent stored registers. -/
theorem witness_ldStore : (∀ k ≤ (15 : Reg).val, Writable ((State.reset.setI 0x200).ea + k)) ∧
    (∀ k ≤ (15 : Reg).val, Writable ((State.reset.setI 0xFF0).ea + k)) ∧
    (∀ k ≤ (0 : Reg).val, Writable ((State.reset.setI 0xFFF).ea + k)) ∧
    0x1FF < (State.reset.setI 0x200).ea ∧ (State.reset.setI 0x200).ea + (15 : Reg).val < 0x210 ∧
    (15 : Reg).val = (14 : Reg).val + 1 ∧ (15 : Reg) ≤ 15 := by
  unfold Writable; decide

/-- StoreThenLoadRestoresTheRegisters: the state in between is the one after the store itself. -/
theorem witness_storeThenLoad : ∃ t, exec (.ldStore 2) (State.reset.setI 0x300) = .next t ∧
    t.i = (State.reset.setI 0x300).i := ⟨_, rfl, rfl⟩

/-- StoredBytesAreFetched: the state after the store, with PC at the first stored byte. -/
theorem witness_storedBytes : ∃ t, exec (.ldStore 1) (State.reset.setI 0x300) = .next t ∧
    (t.setPc 0x300).mem = t.mem ∧ (t.setPc 0x300).pc.toNat = (State.reset.setI 0x300).ea + (0 : Reg).val :=
  ⟨_, rfl, rfl, rfl⟩

/-- LdLoadLoadsV0ToVx: the lowest and the highest I. -/
theorem witness_ldLoad : (∀ k ≤ (15 : Reg).val, Readable (State.reset.ea + k)) ∧
    ∀ k ≤ (15 : Reg).val, Readable ((State.reset.setI 0xFF0).ea + k) := by
  unfold Readable; decide

/-- KeyWaitTakesTheLeastKey: keys 3 and 9, key 0 alone, key 15 alone, and no key. -/
theorem witness_keyWait :
    (let s := (State.reset.keyset 9 true).keyset 3 true
     s.key.get 3 = true ∧ ∀ j < (3 : Reg), s.key.get j = false) ∧
    ((State.reset.keyset 0 true).key.get 0 = true ∧ ∀ j < (0 : Reg), (State.reset.keyset 0 true).key.get j = false) ∧
    ((State.reset.keyset 15 true).key.get 15 = true ∧ ∀ j < (15 : Reg), (State.reset.keyset 15 true).key.get j = false) ∧
    ∀ k : Reg, State.reset.key.get k = false := by decide

/-- OnlyCallAndRetChangeTheStack: a CALL that changes SP and the stack, a RET that changes SP. -/
theorem witness_stackChange :
    (∃ t, exec (.call 0x300) State.reset = .next t ∧ t.sp ≠ State.reset.sp ∧ t.stack ≠ State.reset.stack) ∧
    ∃ t, exec .ret edge = .next t ∧ t.sp ≠ edge.sp :=
  ⟨⟨_, rfl, by decide, by decide⟩, _, rfl, by decide⟩

/-- OnlyClsAndDrwChangeTheScreen: CLS and DRW change it, and a state whose redraw flag is set. -/
theorem witness_screenChange :
    (∃ t, exec .cls State.reset = .next t ∧ t.redraw ≠ State.reset.redraw) ∧
    (∃ t, exec (.drw 0 0 1) State.reset = .next t ∧ Frame.get t.fb 0 0 ≠ State.reset.fb.get 0 0) ∧
    (∃ t, exec (.jp 0x200) (State.reset.setFrame Frame.blank) = .next t) ∧
    (State.reset.setFrame Frame.blank).redraw = true :=
  ⟨⟨_, rfl, by decide⟩, ⟨_, rfl, by decide⟩, ⟨_, rfl⟩, rfl⟩

/-- OnlyThreeInstructionsWriteTheIndex: each of the three changes I. -/
theorem witness_indexChange :
    (∃ t, exec (.ldI 0x300) State.reset = .next t ∧ t.i ≠ State.reset.i) ∧
    (∃ t, exec (.addI 0) (State.reset.setReg 0 1) = .next t ∧ t.i ≠ (State.reset.setReg 0 1).i) ∧
    ∃ t, exec (.ldF 0) (State.reset.setReg 0 1) = .next t ∧ t.i ≠ (State.reset.setReg 0 1).i :=
  ⟨⟨_, rfl, by decide⟩, ⟨_, rfl, by decide⟩, _, rfl, by decide⟩

/-- EngineWritesNoKeyAndTimersOnlyByName: each timer changes. -/
theorem witness_timerChange :
    (∃ t, step (start 0x6A05) = .next t) ∧
    (∃ t, exec (.ldDt 0) (State.reset.setReg 0 1) = .next t ∧ t.dt ≠ (State.reset.setReg 0 1).dt) ∧
    ∃ t, exec (.ldSt 0) (State.reset.setReg 0 1) = .next t ∧ t.st ≠ (State.reset.setReg 0 1).st :=
  ⟨⟨_, rfl⟩, ⟨_, rfl, by decide⟩, _, rfl, by decide⟩

/-- OnlyTwoInstructionsWriteMemory: each of the two changes a byte, at the lowest and the highest address. -/
theorem witness_memoryChange :
    (∃ t, exec (.ldB 0) ((State.reset.setI 0x200).setReg 0 100) = .next t ∧ t.mem ≠ State.reset.mem ∧
      Memory.read t.mem 0x200 ≠ State.reset.mem.read 0x200) ∧
    ∃ t, exec (.ldStore 0) ((State.reset.setI 0xFFF).setReg 0 1) = .next t ∧
      Memory.read t.mem 0xFFF ≠ State.reset.mem.read 0xFFF :=
  ⟨⟨_, rfl, by decide, by decide⟩, _, rfl, by decide⟩

/-- OnlyNamedInstructionsWriteVF: a flag writer and a named destination change VF. -/
theorem witness_vfChange :
    (∃ t, exec (.addReg 1 1) (State.reset.setReg 1 0xFF) = .next t ∧ t.reg 15 ≠ (State.reset.setReg 1 0xFF).reg 15) ∧
    ∃ t, exec (.ldImm 15 7) State.reset = .next t ∧ t.reg 15 ≠ State.reset.reg 15 :=
  ⟨⟨_, rfl, by decide⟩, _, rfl, by decide⟩

/-- StepKeepsTheInvariant and TransactionsKeepTheInvariant: a state that meets the invariant at its bounds (I and PC at
their highest, a listed byte, a return address, a fault) and the one a step leads on from. -/
theorem witness_inv :
    ({ State.reset with
        mem := [(0x300, 0x12)], i := 0xFFF, pc := 0x10FE, sp := 1, stack := Vector.replicate 16 0x1000,
        fault := some ⟨.memoryFault, 0x10FE, none, some 0x10FE, none⟩ } : State).Inv ∧
    ({ State.reset with mem := [(0x300, 0x12)], pc := 0x300 } : State).Inv ∧
    ∃ t, step { State.reset with mem := [(0x300, 0x12)], pc := 0x300 } = .next t ∧ t.pc = 0x200 := by
  have hm : ∀ a < 0x200, Memory.read [(0x300, 0x12)] a = resetByte a := by
    intro a h
    have : (768 == a) = false := by simp; omega
    simp [Memory.read, this]
  refine ⟨⟨by decide, by decide, fun _ => hm, by decide, by decide, by decide, ?_⟩,
    ⟨by decide, by decide, fun _ => hm, by decide, by decide, by decide, fun r h => by cases h⟩, _, rfl, rfl⟩
  intro r h
  cases h
  exact ⟨by decide, by decide, fun _ => rfl, by decide, fun a h => by cases h; decide, fun b h => by cases h⟩

/-- InitLeavesTheResetTable: INIT from a state that is not the reset state. -/
theorem witness_init : (transact .init (start 0x9999).afterStep).1.fault = none ∧
    (start 0x9999).afterStep ≠ State.reset ∧ fontBase ≤ 0x04F ∧ 0x04F < fontBase + 80 ∧ ¬ 0x050 < fontBase + 80 := by
  decide

/-- LoadCopiesTheRom: a ROM that just fits and one that just does not. -/
theorem witness_load : (List.replicate 3584 (0x12 : Byte)).length ≤ 3584 ∧
    3584 < (List.replicate 3585 (0x12 : Byte)).length ∧ 3583 < (List.replicate 3584 (0x12 : Byte)).length :=
  ⟨by rw [List.length_replicate], by rw [List.length_replicate]; decide, by rw [List.length_replicate]; decide⟩

/-- TickCountsTheTimersDown: ST = 1 and ST = 0. -/
theorem witness_tick : (State.reset.setSt 1).st.toNat = 1 ∧ (State.reset.setSt 0).st.toNat ≠ 1 := by decide

/-- DrawingTwiceErasesTheSprite: glyph 0 on a blank screen. -/
theorem witness_drawTwice : (0 : Reg) ≠ 15 ∧ (1 : Reg) ≠ 15 ∧
    (∀ row < (5 : Fin 16).val, Readable (State.reset.ea + row)) ∧
    (∀ px py, SpriteTouches State.reset 0 1 5 px py → State.reset.fb.get px py = false) ∧
    ∃ px py, SpriteTouches State.reset 0 1 5 px py := by
  refine ⟨by decide, by decide, ?_, fun px py _ => ?_, 0, 0, 0, 0, by decide⟩
  · unfold Readable; decide
  · have blank : ∀ px py, State.reset.fb.get px py = false := by decide
    exact blank px py

/-- ParkedStepChangesNothing: 1200 at 0x200. -/
theorem witness_parked : (start 0x1200).Parked := ⟨rfl, 0x200, rfl, rfl⟩

/-- StepReturnsItsStatus: a step that waits, one that executes and one that faults. -/
theorem witness_status :
    ((∃ t, step (start 0xF50A) = .next t) ∧ (start 0xF50A).fault = none ∧ (start 0xF50A).stepStatus = .waitingForKey) ∧
    ((∃ t, step (start 0x6A05) = .next t) ∧ (start 0x6A05).fault = none ∧ (start 0x6A05).stepStatus = .executed) ∧
    (∃ t, step (start 0x9999) = .next t ∧ t.fault = some ⟨.unknownOpcode, 0x200, some 0x9999, none, none⟩) ∧
    (start 0x9999).fault = none :=
  ⟨⟨⟨_, rfl⟩, rfl, by decide⟩, ⟨⟨_, rfl⟩, rfl, by decide⟩, ⟨_, rfl, rfl⟩, rfl⟩

end Sys2Proof.Tests
end

section
/-! PROOFS. The statements about the whole state: the invariant and the rules that keep it, which instruction changes
which element, the status of a STEP, the reset table (spec/10_state.md). -/

namespace Sys2Proof

/-! ### A decoded word is the word of its instruction -/

theorem encode_of_decode0 {w : Word} {i : Instr} (h : decode0 w = some i) : encode i = w := by
  unfold decode0 at h
  split at h
  next hw => cases h; exact hw.symm
  next =>
    split at h
    next hw => cases h; exact hw.symm
    next => cases h

theorem encode_of_decode8 {x y n : Fin 16} {i : Instr} (h : decode8 x y n = some i) : encode i = wordXYN 0x8 x y n := by
  unfold decode8 at h
  split at h <;> cases h <;> rfl

theorem encode_of_decodeE {x : Reg} {nn : Byte} {i : Instr} (h : decodeE x nn = some i) :
    encode i = wordXNN 0xE x nn := by
  unfold decodeE at h
  split at h <;> cases h <;> rfl

theorem encode_of_decodeF {x : Reg} {nn : Byte} {i : Instr} (h : decodeF x nn = some i) :
    encode i = wordXNN 0xF x nn := by
  unfold decodeF at h
  split at h <;> cases h <;> rfl

/-! The word assembled from its fields, for a known major opcode. -/

theorem wordNNN_of_major {w : Word} {op : BitVec 4} (h : w.extractLsb' 12 4 = op) : wordNNN op (fieldNNN w) = w :=
  h ▸ wordNNN_of_fields w

theorem wordXNN_of_major {w : Word} {op : BitVec 4} (h : w.extractLsb' 12 4 = op) :
    wordXNN op (fieldX w) (fieldNN w) = w :=
  h ▸ wordXNN_of_fields w

theorem wordXYN_of_major {w : Word} {op : BitVec 4} (h : w.extractLsb' 12 4 = op) :
    wordXYN op (fieldX w) (fieldY w) (fieldN w) = w :=
  h ▸ wordXYN_of_fields w

/-- A word that decodes is the word of the instruction it decodes to (R80–R84). The cases are the router's arms of R83,
major opcode 0x0 to 0xF in order. -/
theorem encode_of_decodeWord {w : Word} {i : Instr} (h : decodeWord w = some i) : encode i = w := by
  unfold decodeWord at h
  simp only at h
  split at h
  next => exact encode_of_decode0 h
  next hw => cases h; exact wordNNN_of_major hw
  next hw => cases h; exact wordNNN_of_major hw
  next hw => cases h; exact wordXNN_of_major hw
  next hw => cases h; exact wordXNN_of_major hw
  next hw =>
    split at h
    next hn => cases h; rw [encode, ← hn]; exact wordXYN_of_major hw
    next => cases h
  next hw => cases h; exact wordXNN_of_major hw
  next hw => cases h; exact wordXNN_of_major hw
  next hw => rw [encode_of_decode8 h]; exact wordXYN_of_major hw
  next hw =>
    split at h
    next hn => cases h; rw [encode, ← hn]; exact wordXYN_of_major hw
    next => cases h
  next hw => cases h; exact wordNNN_of_major hw
  next hw => cases h; exact wordNNN_of_major hw
  next hw => cases h; exact wordXNN_of_major hw
  next hw => cases h; exact wordXYN_of_major hw
  next hw => rw [encode_of_decodeE h]; exact wordXNN_of_major hw
  next =>
    have hw : w.extractLsb' 12 4 = 0xF := by
      simp only [imp_false] at *
      bv_omega
    rw [encode_of_decodeF h]
    exact wordXNN_of_major hw

end Sys2Proof

namespace Sys2Proof.Machine

/-! ### Memory after a run of writes, PC after an instruction -/

/-- A byte that a run of writes changes lies in the run (R61). -/
theorem Memory.mem_run_of_read_writeBytes_ne {m : Memory} {a a' : Nat} {bs : List Byte}
    (h : (m.writeBytes a bs).read a' ≠ m.read a') : ∃ k < bs.length, a' = a + k := by
  by_cases hr : a ≤ a' ∧ a' - a < bs.length
  · exact ⟨a' - a, hr.2, by omega⟩
  · exact absurd (by rw [Memory.read_writeBytes, dif_neg hr]) h

/-- PC past an instruction that was fetched does not wrap (R92). -/
theorem toNat_add_two {w : Word} (h : w.toNat ≤ 0x1000) : (w + 2).toNat = w.toNat + 2 := by
  bv_omega

/-! ### One rule per update: what it needs to keep the invariant -/

section
variable {s t : State} (hs : s.Inv)
include hs

/-- The invariant reads five elements of the state only. -/
theorem State.Inv.congr (hmem : t.mem = s.mem) (hi : t.i = s.i) (hpc : t.pc = s.pc) (hstack : t.stack = s.stack)
    (hfault : t.fault = s.fault) : t.Inv where
  memWf := by rw [hmem]; exact hs.memWf
  memInBank := by rw [hmem]; exact hs.memInBank
  reserved := by rw [hmem]; exact hs.reserved
  index := by rw [hi]; exact hs.index
  pcBound := by rw [hpc]; exact hs.pcBound
  stackBound := by rw [hstack]; exact hs.stackBound
  faultShape := by rw [hfault]; exact hs.faultShape

theorem State.Inv.setReg (r : Reg) (b : Byte) : (s.setReg r b).Inv := hs.congr rfl rfl rfl rfl rfl

theorem State.Inv.setFlag (f : Bool) : (s.setFlag f).Inv := hs.congr rfl rfl rfl rfl rfl

theorem State.Inv.setRegsUpTo (x : Reg) (f : Nat → Byte) : (s.setRegsUpTo x f).Inv :=
  hs.congr (s.setRegsUpTo_mem x f) (s.setRegsUpTo_i x f) (s.setRegsUpTo_pc x f) (s.setRegsUpTo_stack x f)
    (s.setRegsUpTo_fault x f)

theorem State.Inv.setFrame (fb : Frame) : (s.setFrame fb).Inv := hs.congr rfl rfl rfl rfl rfl

theorem State.Inv.setDt (b : Byte) : (s.setDt b).Inv := hs.congr rfl rfl rfl rfl rfl

theorem State.Inv.setSt (b : Byte) : (s.setSt b).Inv := hs.congr rfl rfl rfl rfl rfl

theorem State.Inv.nextDraw : s.nextDraw.Inv := hs.congr rfl rfl rfl rfl rfl

theorem State.Inv.drop : s.drop.Inv := hs.congr rfl rfl rfl rfl rfl

theorem State.Inv.tick : s.tick.Inv := hs.congr rfl rfl rfl rfl rfl

theorem State.Inv.keyset (k : Reg) (b : Bool) : (s.keyset k b).Inv := hs.congr rfl rfl rfl rfl rfl

theorem State.Inv.redrawAck : s.redrawAck.Inv := hs.congr rfl rfl rfl rfl rfl

theorem State.Inv.setI {w : Word} (hw : w.toNat ≤ 0xFFF) : (s.setI w).Inv := { hs with index := hw }

theorem State.Inv.setPc {w : Word} (hw : w.toNat ≤ 0x10FE) : (s.setPc w).Inv := { hs with pcBound := hw }

/-- A fault is recorded at the start of the step, so only its record can break the invariant (R172). -/
theorem State.Inv.takeFault {o : Option Word} {c : FaultCause} (hr : (c.record s.pc o).Shaped) :
    (s.takeFault o c).Inv :=
  { hs with
    faultShape := fun r h => by
      obtain rfl : c.record s.pc o = r := Option.some.inj h
      exact hr }

/-- The advance of a PC that was fetched from (R92). -/
theorem State.Inv.advance (hp : s.pc.toNat ≤ 0xFFE) : s.advance.Inv :=
  hs.setPc (by rw [toNat_add_two (by omega)]; omega)

/-- Skip(c) of a PC that was fetched from (R93). -/
theorem State.Inv.advance_skipIf (hp : s.pc.toNat ≤ 0xFFE) (c : Bool) : (s.advance.skipIf c).Inv := by
  cases c
  · exact hs.advance hp
  · refine (hs.advance hp).setPc ?_
    have h2 : (s.pc + 2).toNat = s.pc.toNat + 2 := toNat_add_two (by omega)
    rw [State.advance_pc, toNat_add_two (by omega)]
    omega

/-- A push of a return address (R112). -/
theorem State.Inv.push {w : Word} (hw : w.toNat ≤ 0x1000) : (s.push w).Inv := by
  unfold State.push
  split
  · refine { hs with stackBound := fun k => ?_ }
    rw [Vector.get_eq_getElem, Vector.getElem_set]
    split
    · exact hw
    · exact hs.stackBound k
  · exact hs

theorem State.Inv.top_le : s.top.toNat ≤ 0x1000 := hs.stackBound _

/-- A run of writes that all pass CheckWrite (R52). -/
theorem State.Inv.setMem_writeBytes {a : Nat} {bs : List Byte} (hw : ∀ k < bs.length, Writable (a + k)) :
    (s.setMem (s.mem.writeBytes a bs)).Inv where
  memWf := Memory.writeBytes_wf _ _ _ hs.memWf
  memInBank := by
    cases bs with
    | nil => exact hs.memInBank
    | cons b bs =>
      obtain ⟨hlast, _⟩ := hw bs.length (by simp)
      exact Memory.writeBytes_inBank _ _ _ (by rw [List.length_cons]; simp only [Config.addrMax]; omega) hs.memInBank
  reserved := fun h b hlt => by
    rw [← hs.reserved h b hlt]
    by_contra hne
    obtain ⟨k, hk, rfl⟩ := Memory.mem_run_of_read_writeBytes_ne hne
    obtain ⟨_, hlow⟩ := hw k hk
    exact absurd (hlow h) (not_le.mpr hlt)
  index := hs.index
  pcBound := hs.pcBound
  stackBound := hs.stackBound
  faultShape := hs.faultShape

end

/-! ### What a STEP can record -/

/-- The info a cause carries within the invariant: an offending address at most 0x10FE (R113, R151), a key index above 0xF
(R126). -/
def FaultCause.InRange : FaultCause → Prop
  | .memory a => a ≤ 0x10FE
  | .keyIndex v => 0xF < v.toNat
  | _ => True

/-- A record is well shaped if its cause is in range, and it has no opcode only for a MemoryFault (R170, R171). -/
theorem FaultCause.record_shaped {c : FaultCause} {pc : Word} {o : Option Word} (hc : c.InRange)
    (hp : pc.toNat ≤ 0x10FE) (ho : o = none → ∃ a, c = .memory a) : (c.record pc o).Shaped where
  addr := by cases c <;> simp [record]
  key := by cases c <;> simp [record]
  opcode := fun h => by
    rw [record_opcode] at h
    obtain ⟨_, rfl⟩ := ho h
    rfl
  pcBound := by rw [record_pc]; exact hp
  addrBound := fun b hb => by
    cases c with
    | memory a =>
      obtain rfl : BitVec.ofNat 16 a = b := Option.some.inj hb
      exact (BitVec.toNat_ofNat a 16 ▸ Nat.mod_le a _).trans hc
    | _ => cases hb
  keyBound := fun b hb => by
    cases c with
    | keyIndex v =>
      obtain rfl : v = b := Option.some.inj hb
      exact hc
    | _ => cases hb

/-- An access that starts at I within the invariant offends in range (R113). -/
theorem State.memory_ea_inRange {s : State} {k : Nat} (hx : s.i.toNat ≤ 0xFFF) (hk : k ≤ 0xFF) :
    (FaultCause.memory (s.ea + k)).InRange := by
  simp only [FaultCause.InRange, State.ea]
  omega

/-- KeyIndexFault is raised only above 0xF (R126). -/
theorem lt_of_keyIndex_eq_none {b : Byte} (h : keyIndex b = none) : 0xF < b.toNat := by
  by_contra hle
  have hsome : keyIndex b = some ⟨b.toNat, by omega⟩ := dif_pos _
  rw [hsome] at h
  cases h

/-- An instruction keeps the fault status, or takes a fault whose cause is in range. -/
theorem exec_fault_cases {i : Instr} {s t : State} (h : exec i s = .next t) (hx : s.i.toNat ≤ 0xFFF) :
    t.fault = s.fault ∨ ∃ c : FaultCause, c.InRange ∧ t = s.takeFault (some (encode i)) c := by
  cases i
  case drw =>
    rcases execDrw_next h with ⟨_, rfl⟩ | ⟨_, hk, _, _, rfl⟩
    · exact .inl (by simp)
    · exact .inr ⟨_, State.memory_ea_inRange hx (by omega), rfl⟩
  case ldLoad =>
    rcases execLdLoad_next h with ⟨_, rfl⟩ | ⟨_, hk, _, _, rfl⟩
    · exact .inl (by simp)
    · exact .inr ⟨_, State.memory_ea_inRange hx (by omega), rfl⟩
  case ldStore =>
    rcases storeAtIWith_next h with ⟨_, rfl⟩ | ⟨_, hk, _, _, rfl⟩
    · exact .inl (by simp)
    · rw [State.length_regsUpTo] at hk
      exact .inr ⟨_, State.memory_ea_inRange hx (by omega), rfl⟩
  case ldB =>
    rcases storeAtIWith_next h with ⟨_, rfl⟩ | ⟨_, hk, _, _, rfl⟩
    · exact .inl (by simp)
    · exact .inr ⟨_, State.memory_ea_inRange hx (hk.le.trans (by simp [bcdDigits])), rfl⟩
  case addI =>
    rcases addIWith_next h with ⟨_, _, rfl⟩ | ⟨_, _, rfl⟩
    · exact .inl (by simp)
    · exact .inr ⟨_, State.memory_ea_inRange hx (by omega), rfl⟩
  case ret =>
    rcases execRet_next h with ⟨_, rfl⟩ | ⟨_, rfl⟩
    · exact .inl (by simp)
    · exact .inr ⟨.stackUnderflow, trivial, rfl⟩
  case call =>
    rcases execCall_next h with ⟨_, rfl⟩ | ⟨_, rfl⟩
    · exact .inl (by simp)
    · exact .inr ⟨.stackOverflow, trivial, rfl⟩
  case skp =>
    rcases finishKeySkip_next h with ⟨_, _, rfl⟩ | ⟨hk, rfl⟩
    · exact .inl (by simp)
    · exact .inr ⟨.keyIndex _, lt_of_keyIndex_eq_none hk, rfl⟩
  case sknp =>
    rcases finishKeySkip_next h with ⟨_, _, rfl⟩ | ⟨hk, rfl⟩
    · exact .inl (by simp)
    · exact .inr ⟨.keyIndex _, lt_of_keyIndex_eq_none hk, rfl⟩
  case ldVxK =>
    rcases execLdVxK_next h with ⟨_, _, rfl⟩ | ⟨_, rfl⟩
    · exact .inl (by simp)
    · exact .inl rfl
  all_goals
    cases h
    exact .inl (by simp)

/-- An instruction that was fetched keeps the invariant. -/
theorem exec_inv {i : Instr} {s t : State} (hs : s.Inv) (hp : s.pc.toNat ≤ 0xFFE) (h : exec i s = .next t) : t.Inv := by
  rcases exec_fault_cases h hs.index with hf | ⟨c, hc, rfl⟩
  · cases exec_effect h with
    | fault c => exact hs.takeFault (hs.faultShape _ hf.symm)
    | clear => exact (hs.advance hp).setFrame _
    | draw => exact ((hs.advance hp).setFrame _).setFlag _
    | load => exact (hs.advance hp).setRegsUpTo _ _
    | store _ _ _ hw => exact (hs.advance hp).setMem_writeBytes fun k hk => (writeOkWith_iff _ _).mp (hw k hk)
    | ret => exact hs.drop.setPc (hs.top_le.trans (by omega))
    | call nnn =>
      have hret : (s.pc + 2).toNat ≤ 0x1000 := by rw [toNat_add_two (by omega)]; omega
      exact (hs.push hret).setPc (by rw [address_toNat]; omega)
    | skip c => exact hs.advance_skipIf hp c
    | index w hw => exact (hs.advance hp).setI hw
    | wait => exact hs
    | reg => exact (hs.advance hp).setReg _ _
    | random => exact (hs.nextDraw.advance hp).setReg _ _
    | regFlag => exact ((hs.advance hp).setReg _ _).setFlag _
    | jump p hj => exact hs.setPc hj
    | delay => exact (hs.advance hp).setDt _
    | sound => exact (hs.advance hp).setSt _
  · exact hs.takeFault (FaultCause.record_shaped hc hs.pcBound (by simp))

/-- What a STEP can do, in the priority of R174: one constructor per branch of R90. -/
inductive StepEffect (s : State) : State → Prop where
  | halted (r : FaultRecord) (hr : s.fault = some r) : StepEffect s s
  | fetchFault (a : Nat) (hn : s.fault = none) (hf : fetch s = .error a) : StepEffect s (s.takeFault none (.memory a))
  | unknown (w : Word) (hn : s.fault = none) (hf : fetch s = .ok w) (hd : decodeWord w = none) :
      StepEffect s (s.takeFault (some w) .unknownOpcode)
  | instruction (w : Word) (i : Instr) (t : State) (hn : s.fault = none) (hf : fetch s = .ok w)
      (hd : decodeWord w = some i) (he : exec i s = .next t) : StepEffect s t

theorem step_effect {s t : State} (h : step s = .next t) : StepEffect s t := by
  unfold step at h
  split at h
  next r hr => cases h; exact .halted r hr
  next hn =>
    split at h
    next a hf => cases h; exact .fetchFault a hn hf
    next w hf =>
      split at h
      next hd => cases h; exact .unknown w hn hf hd
      next i hd => exact .instruction w i t hn hf hd h

/-- STEP keeps the invariant (R36). -/
theorem step_inv {s t : State} (hs : s.Inv) (h : step s = .next t) : t.Inv := by
  cases step_effect h with
  | halted => exact hs
  | fetchFault a _ hf =>
    obtain ⟨_, rfl⟩ := (fetch_error_iff s a).mp hf
    have ha : (FaultCause.memory (max s.pc.toNat 0x1000)).InRange := max_le hs.pcBound (by omega)
    exact hs.takeFault (FaultCause.record_shaped ha hs.pcBound fun _ => ⟨_, rfl⟩)
  | unknown w =>
    have hc : FaultCause.unknownOpcode.InRange := trivial
    exact hs.takeFault (FaultCause.record_shaped hc hs.pcBound (by simp))
  | instruction w i _ _ hf _ he => exact exec_inv hs (pc_of_fetch_ok s w hf) he

/-- Settles O46, by the branches of STEP and the shapes of an instruction's next states. -/
theorem stepKeepsTheInvariant : Obligations.StepKeepsTheInvariant :=
  fun _ _ hs h => step_inv hs h

/-! ### The other transactions -/

theorem State.reset_inv : State.reset.Inv where
  memWf := Memory.reset_wf
  memInBank := by simp [State.reset]
  reserved _ _ _ := rfl
  index := by decide
  pcBound := by decide
  stackBound := by decide
  faultShape := fun r h => by cases h

/-- INIT leaves the reset values from any state (R200). -/
theorem transact_init_inv (s : State) : (transact .init s).1.Inv := State.reset_inv.congr rfl rfl rfl rfl rfl

/-- An accepted ROM lies in 0x200–0xFFF (R58). -/
theorem State.Inv.load {s : State} (hs : s.Inv) (rom : List Byte) : (s.load rom).1.Inv := by
  unfold State.load
  split
  · exact hs
  · rename_i hlen
    refine hs.setMem_writeBytes fun k hk => ?_
    simp only [Writable, Config.progStart, Config.romMax] at hlen ⊢
    omega

theorem State.Inv.afterStep {s : State} (hs : s.Inv) : s.afterStep.Inv := by
  unfold State.afterStep
  split
  · exact step_inv hs ‹_›
  · exact hs
  · exact hs

/-- A transaction keeps the invariant (R36). -/
theorem transact_inv (tr : Transaction) {s : State} (hs : s.Inv) : (transact tr s).1.Inv := by
  cases tr with
  | init => exact transact_init_inv s
  | load rom => exact hs.load rom
  | step => exact hs.afterStep
  | tick => exact hs.tick
  | keyset k b => exact hs.keyset k b
  | redrawAck => exact hs.redrawAck

/-- So does a run of transactions in any order (R68). -/
theorem runTransactions_inv (trs : List Transaction) {s : State} (hs : s.Inv) : (runTransactions s trs).Inv := by
  induction trs generalizing s with
  | nil => exact hs
  | cons tr trs ih => exact ih (transact_inv tr hs)

/-- Settles O47, one rule per transaction. -/
theorem transactionsKeepTheInvariant : Obligations.TransactionsKeepTheInvariant :=
  fun tr _ hs => transact_inv tr hs

/-- Settles O49. -/
theorem resetMeetsTheInvariant : Obligations.ResetMeetsTheInvariant := State.reset_inv

/-- Settles O48, from O47 and O49 by induction over the run. -/
theorem reachableStatesMeetTheInvariant : Obligations.ReachableStatesMeetTheInvariant :=
  fun trs => runTransactions_inv trs State.reset_inv

/-! ### Which instruction changes which element -/

/-- Settles O40, by the shapes of an instruction's next states. -/
theorem onlyCallAndRetChangeTheStack : Obligations.OnlyCallAndRetChangeTheStack := by
  intro i s t h
  cases exec_effect h with
  | ret hi => exact ⟨fun _ => .inl hi, fun hne => absurd rfl hne⟩
  | call nnn hi => exact ⟨fun _ => .inr ⟨nnn, hi⟩, fun _ => ⟨nnn, hi⟩⟩
  | _ => simp

/-- Settles O41, by the shapes of an instruction's next states. -/
theorem onlyClsAndDrwChangeTheScreen : Obligations.OnlyClsAndDrwChangeTheScreen := by
  intro i s t h
  cases exec_effect h with
  | clear hi => exact ⟨fun _ => .inl hi, fun _ => rfl⟩
  | draw x y n hi => exact ⟨fun _ => .inr ⟨x, y, n, hi⟩, fun _ => rfl⟩
  | _ => simp

/-- Settles O42, by the shapes of an instruction's next states. -/
theorem onlyThreeInstructionsWriteTheIndex : Obligations.OnlyThreeInstructionsWriteTheIndex := by
  intro i s t h hne
  cases exec_effect h with
  | index w hw hi => exact ⟨hi, hw⟩
  | _ => exact absurd (by simp) hne

theorem exec_key {i : Instr} {s t : State} (h : exec i s = .next t) : t.key = s.key := by
  cases exec_effect h <;> simp

theorem step_key {s t : State} (h : step s = .next t) : t.key = s.key := by
  cases step_effect h with
  | instruction _ _ _ _ _ _ he => exact exec_key he
  | _ => rfl

/-- Settles O43, by the branches of STEP and the shapes of an instruction's next states. -/
theorem engineWritesNoKeyAndTimersOnlyByName : Obligations.EngineWritesNoKeyAndTimersOnlyByName := by
  refine ⟨fun s t h => step_key h, fun i s t h => ?_⟩
  cases exec_effect h with
  | delay x hi => exact ⟨fun _ => ⟨x, hi⟩, fun hne => absurd rfl hne⟩
  | sound x hi => exact ⟨fun hne => absurd rfl hne, fun _ => ⟨x, hi⟩⟩
  | _ => simp

/-- Settles O44: a byte that changes lies in the run of a store, and each address of the run passed CheckWrite. -/
theorem onlyTwoInstructionsWriteMemory : Obligations.OnlyTwoInstructionsWriteMemory := by
  intro i s t h
  cases exec_effect h with
  | store x bs hi hw =>
    refine ⟨fun _ => ⟨x, hi⟩, fun a ha => ?_⟩
    obtain ⟨k, hk, rfl⟩ := Memory.mem_run_of_read_writeBytes_ne ha
    exact (writeOkWith_iff _ _).mp (hw k hk)
  | _ => simp

/-- A register that a write changes is the one written (R21). -/
theorem State.eq_of_reg_setReg_ne {s : State} {x q : Reg} {b : Byte} (h : (s.setReg x b).reg q ≠ s.reg q) : x = q := by
  by_contra hx
  exact h (by rw [State.reg_setReg, if_neg (Ne.symm hx)])

/-- Settles O45, by the shapes of an instruction's next states. -/
theorem onlyNamedInstructionsWriteVF : Obligations.OnlyNamedInstructionsWriteVF := by
  intro i s t h hne
  cases exec_effect h with
  | draw x y n hi => rw [hi]; rfl
  | load x hi =>
    have hx : 15 ≤ x := by
      by_contra hx
      exact hne (by rw [State.reg_setRegsUpTo, if_neg hx, State.reg_advance])
    rw [hi]
    exact beq_iff_eq.mpr (le_antisymm (Fin.le_last x) hx)
  | reg x b hv =>
    have hx : x = 15 := State.eq_of_reg_setReg_ne (s := s.advance) hne
    rw [hv, hx]; rfl
  | random x b hv =>
    have hx : x = 15 := State.eq_of_reg_setReg_ne (s := s.nextDraw.advance) hne
    rw [hv, hx]; rfl
  | regFlag x b f hv => exact hv
  | _ => exact absurd (by simp [State.reg]) hne

/-! ### The status of a STEP -/

/-- The decoder gives the key wait for FX0A and for no other word (R161). -/
theorem decodeWord_isKeyWait_iff (w : Word) :
    (decodeWord w).any isKeyWait = true ↔ ∃ x, w = wordXNN 0xF x 0x0A := by
  constructor
  · intro h
    cases hd : decodeWord w with
    | none => simp [hd] at h
    | some i =>
      cases i with
      | ldVxK x => exact ⟨x, (encode_of_decodeWord hd).symm⟩
      | _ => simp [hd, isKeyWait] at h
  · rintro ⟨x, rfl⟩
    simp [decodeWord, decodeF, isKeyWait]

/-- A state waits exactly at an FX0A with no key pressed (R161, R189). -/
theorem State.waits_iff (s : State) :
    s.waits = true ↔ (∃ x, fetch s = .ok (wordXNN 0xF x 0x0A)) ∧ ∀ k, s.pressed k = false := by
  unfold State.waits
  split
  next w hf =>
    rw [Bool.and_eq_true, decodeWord_isKeyWait_iff, Option.isNone_iff_eq_none, State.leastKey_eq_none_iff, hf]
    simp
  next a hf => simp [hf]

theorem State.afterStep_of_next {s t : State} (h : step s = .next t) : s.afterStep = t := by
  rw [State.afterStep, h]

/-- A STEP is Faulted exactly by the fault recorded after it (R30). -/
theorem State.stepStatus_eq_faulted_iff (s : State) (r : FaultRecord) :
    s.stepStatus = .faulted r ↔ s.afterStep.fault = some r := by
  unfold State.stepStatus
  split
  next q hq => rw [hq]; simp
  next hn => rw [hn]; split <;> simp

/-- A STEP waits exactly if the state before it waits and it records no fault (R30). -/
theorem State.stepStatus_eq_waitingForKey_iff (s : State) :
    s.stepStatus = .waitingForKey ↔ s.afterStep.fault = none ∧ s.waits = true := by
  unfold State.stepStatus
  split
  next q hq => simp [hq]
  next hn => simp [hn]

/-- A waiting STEP leaves the state as it is (R161). -/
theorem step_of_waits {s : State} (hn : s.fault = none) (hw : s.waits = true) : step s = .next s := by
  obtain ⟨⟨x, hf⟩, hk⟩ := s.waits_iff.mp hw
  have hd : decodeWord (wordXNN 0xF x 0x0A) = some (.ldVxK x) := by simp [decodeWord, decodeF]
  have he : exec (.ldVxK x) s = .next s := by
    change execLdVxK x s = .next s
    rw [execLdVxK, s.leastKey_eq_none_iff.mpr hk]
  simp only [step, hn, hf, hd, he]

/-- Settles O58: a waiting state records no fault, since its STEP leaves it as it is. -/
theorem stepReturnsItsStatus : Obligations.StepReturnsItsStatus := by
  intro s t hn h
  have ht := State.afterStep_of_next h
  refine ⟨by rw [transact, ht], ?_, fun r => by rw [State.stepStatus_eq_faulted_iff, ht]⟩
  have hnone : s.waits = true → s.afterStep.fault = none := fun hw => by
    rw [State.afterStep_of_next (step_of_waits hn hw), hn]
  rw [State.stepStatus_eq_waitingForKey_iff, and_iff_right_of_imp hnone]
  exact s.waits_iff

/-! ### The reset table -/

/-- The reset image is FONT_DATA at FONT_BASE and 0 everywhere else (R42, R55, R56). -/
theorem resetByte_eq (a : Nat) :
    resetByte a = if fontBase ≤ a ∧ a < fontBase + 80 then fontData.getD (a - fontBase) 0 else 0 := by
  have hlen : fontData.length = 80 := rfl
  unfold resetByte
  split
  · rw [if_neg (by omega)]
  · split
    · rfl
    · exact List.getD_eq_default _ _ (by omega)

/-- Settles O50: reset and INIT leave the reset record, up to the counter of draws. -/
theorem initLeavesTheResetTable : Obligations.InitLeavesTheResetTable := by
  refine ⟨fun t ht => ?_, fun _ => rfl, fun _ _ => rfl⟩
  obtain ⟨d, rfl⟩ : ∃ d, t = { State.reset with draws := d } := by
    rcases ht with rfl | ⟨s, rfl⟩
    · exact ⟨0, rfl⟩
    · exact ⟨s.draws, rfl⟩
  have hv : ∀ r, State.reset.reg r = 0 := by decide
  have hstack : ∀ k, State.reset.stack.get k = 0 := by decide
  have hkey : ∀ k, State.reset.key.get k = false := by decide
  exact ⟨resetByte_eq, hv, rfl, rfl, rfl, hstack, rfl, rfl, hkey, Frame.get_blank, rfl, rfl, rfl⟩

end Sys2Proof.Machine
end

section
/-! PROOFS. The statements about the memory bank: the fetch, LOAD, and a fetch of bytes just stored
(spec/20_memory.md). -/

namespace Sys2Proof

/-! ### The two bytes of a fetched word -/

/-- The byte read first is bits 15–8 of the word (R60). -/
theorem highByte_wordOfBytes (hi lo : Byte) : (wordOfBytes hi lo).extractLsb' 8 8 = hi :=
  BitVec.extractLsb'_append_eq_left

/-- The byte read second is bits 7–0 of the word (R60). -/
theorem lowByte_wordOfBytes (hi lo : Byte) : (wordOfBytes hi lo).extractLsb' 0 8 = lo :=
  BitVec.extractLsb'_append_eq_right

end Sys2Proof

namespace Sys2Proof.Machine

/-- Settles O6: a fetch inside the bank reads the word of the two bytes at PC. -/
theorem fetchIsBigEndian : Obligations.FetchIsBigEndian :=
  fun s hp => ⟨_, fetch_ok s hp, highByte_wordOfBytes _ _, lowByte_wordOfBytes _ _⟩

/-! ### LOAD -/

/-- The k-th address of a run of writes reads as its k-th byte (R61, R62). -/
theorem Memory.read_writeBytes_add (m : Memory) (a : Nat) (bs : List Byte) (k : Nat) (hk : k < bs.length) :
    (m.writeBytes a bs).read (a + k) = bs[k] := by
  have hin : a ≤ a + k ∧ a + k - a < bs.length := by omega
  rw [Memory.read_writeBytes, dif_pos hin]
  congr 1
  omega

/-- A byte outside a run of writes reads as before (R61). -/
theorem Memory.read_writeBytes_outside (m : Memory) {a a' : Nat} {bs : List Byte}
    (h : a' < a ∨ a + bs.length ≤ a') : (m.writeBytes a bs).read a' = m.read a' := by
  have hout : ¬ (a ≤ a' ∧ a' - a < bs.length) := by omega
  rw [Memory.read_writeBytes, dif_neg hout]

/-- A ROM above ROM_MAX is refused (R58, R175). -/
theorem State.load_of_tooLarge (s : State) {rom : List Byte} (h : 3584 < rom.length) :
    s.load rom = (s, .romTooLarge) := if_pos h

/-- A ROM up to ROM_MAX is written from PROG_START on (R58). -/
theorem State.load_of_fits (s : State) {rom : List Byte} (h : rom.length ≤ 3584) :
    s.load rom = (s.setMem (s.mem.writeBytes 0x200 rom), .ok) := if_neg (not_lt.mpr h)

/-- Settles O51: an accepted ROM is one run of writes from 0x200 on. -/
theorem loadCopiesTheRom : Obligations.LoadCopiesTheRom := by
  refine fun rom s => ⟨fun hlarge => ?_, fun hfits => ⟨s.mem.writeBytes 0x200 rom, ?_, ?_, ?_⟩⟩
  · rw [transact, s.load_of_tooLarge hlarge]
  · rw [transact, s.load_of_fits hfits]; rfl
  · exact s.mem.read_writeBytes_add 0x200 rom
  · exact fun a ha => s.mem.read_writeBytes_outside ha

/-! ### A fetch of stored bytes -/

/-- A store whose addresses all pass CheckWrite writes every byte (R52, R153, R154). -/
theorem storeAtIWith_of_writable {s : State} {bs : List Byte} (i : Instr)
    (hw : ∀ j < bs.length, Writable (s.ea + j)) :
    storeAtIWith reservedWriteFault i bs s = .next (s.advance.setMem (s.mem.writeBytes s.ea bs)) := by
  have hgood : firstBad (writeOkWith reservedWriteFault) s.ea bs.length = none :=
    (firstBad_eq_none_iff _ _ _).mpr fun j hj => (writeOkWith_iff _ _).mpr (hw j hj)
  rw [storeAtIWith, hgood]

/-- FX55 at writable addresses stores V0 to Vx at I and advances PC (R154). -/
theorem exec_ldStore_of_writable {s : State} {x : Reg} (hw : ∀ j ≤ x.val, Writable (s.ea + j)) :
    exec (.ldStore x) s = .next (s.advance.setMem (s.mem.writeBytes s.ea (s.regsUpTo x))) :=
  storeAtIWith_of_writable _ fun j hj => hw j (by rw [State.length_regsUpTo] at hj; omega)

/-- Settles O56: the two bytes at PC are the ones FX55 stored there, both inside the bank since CheckWrite passed. -/
theorem storedBytesAreFetched : Obligations.StoredBytesAreFetched := by
  intro x k l s u hw hkl hlx
  have hlx' : l.val ≤ x.val := hlx
  have hkx : k.val ≤ x.val := by omega
  refine ⟨_, exec_ldStore_of_writable hw, fun hmem hpc => ?_⟩
  have hfirst : u.mem.read u.pc.toNat = s.reg k := by
    rw [hmem, hpc]
    exact Memory.read_storedRegs s x k hkx
  have hsecond : u.mem.read (u.pc.toNat + 1) = s.reg l := by
    rw [hmem, hpc, Nat.add_assoc, ← hkl]
    exact Memory.read_storedRegs s x l hlx
  obtain ⟨hbank, _⟩ := hw l.val hlx'
  rw [fetch_ok u (by omega), hfirst, hsecond]

end Sys2Proof.Machine
end

section
/-! PROOFS. The statements about the decoder, the fetch and the STEP (spec/30_encoding.md). -/

namespace Sys2Proof

/-! ### Decode of encode -/

/-- Major opcode 0x8 goes to the decoder of its minor opcode (R83). -/
theorem decodeWord_wordXYN_8 (x y n : Fin 16) : decodeWord (wordXYN 0x8 x y n) = decode8 x y n := by
  simp [decodeWord]

/-- Major opcode 0xE goes to the decoder of its minor opcode (R83). -/
theorem decodeWord_wordXNN_E (x : Reg) (nn : Byte) : decodeWord (wordXNN 0xE x nn) = decodeE x nn := by
  simp [decodeWord]

/-- Major opcode 0xF goes to the decoder of its minor opcode (R83). -/
theorem decodeWord_wordXNN_F (x : Reg) (nn : Byte) : decodeWord (wordXNN 0xF x nn) = decodeF x nn := by
  simp [decodeWord]

/-- The word of an instruction decodes to it (R80–R84): by its minor opcode in the families 0x8, 0xE and 0xF, else by
its major opcode. -/
theorem decodeWord_encode (i : Instr) : decodeWord (encode i) = some i := by
  cases i with
  | cls | ret => rfl
  | ldReg x y | or x y | and x y | xor x y | addReg x y | sub x y | shr x y | subn x y | shl x y =>
    exact decodeWord_wordXYN_8 x y _
  | skp x | sknp x => exact decodeWord_wordXNN_E x _
  | ldVxDt x | ldVxK x | ldDt x | ldSt x | addI x | ldF x | ldB x | ldStore x | ldLoad x =>
    exact decodeWord_wordXNN_F x _
  | _ => simp [encode, decodeWord]

/-- Settles O1, from the decoder's two laws on words. -/
theorem decodeOfEncodeGivesTheInstruction : Obligations.DecodeOfEncodeGivesTheInstruction := by
  refine ⟨fun i rest => ?_, fun _ _ => encode_of_decodeWord⟩
  rw [encodeBytes, decode_bytesOfWord, decodeWord_encode]

/-! ### The opcode table -/

/-- The decoder knows exactly the words that encode an instruction (R83). -/
theorem decodeWord_isSome_iff (w : Word) : (decodeWord w).isSome = true ↔ ∃ i, encode i = w := by
  rw [Option.isSome_iff_exists]
  refine exists_congr fun i => ⟨encode_of_decodeWord, ?_⟩
  rintro rfl
  exact decodeWord_encode i

/-- Every instruction's word is accepted by its own row of the table (R81, R84). -/
theorem Laws.TableRow.statement_holds : ∀ i : Instr, Laws.TableRow.Statement i
  | .cls => cls
  | .ret => ret
  | .jp nnn => jp nnn
  | .call nnn => call nnn
  | .seImm x nn => seImm x nn
  | .sneImm x nn => sneImm x nn
  | .seReg x y => seReg x y
  | .ldImm x nn => ldImm x nn
  | .addImm x nn => addImm x nn
  | .ldReg x y => ldReg x y
  | .or x y => TableRow.or x y
  | .and x y => TableRow.and x y
  | .xor x y => TableRow.xor x y
  | .addReg x y => addReg x y
  | .sub x y => sub x y
  | .shr x y => shr x y
  | .subn x y => subn x y
  | .shl x y => shl x y
  | .sneReg x y => sneReg x y
  | .ldI nnn => ldI nnn
  | .jpV0 nnn => jpV0 nnn
  | .rnd x nn => rnd x nn
  | .drw x y n => drw x y n
  | .skp x => skp x
  | .sknp x => sknp x
  | .ldVxDt x => ldVxDt x
  | .ldVxK x => ldVxK x
  | .ldDt x => ldDt x
  | .ldSt x => ldSt x
  | .addI x => addI x
  | .ldF x => ldF x
  | .ldB x => ldB x
  | .ldStore x => ldStore x
  | .ldLoad x => ldLoad x

/-- The word of an instruction is legal (R85). -/
theorem wordWellFormed_encode (i : Instr) : wordWellFormed (encode i) = true := by
  obtain ⟨hrow, hacc⟩ := (Option.any_eq_true_iff_get _ _).mp (Laws.TableRow.statement_holds i)
  exact List.any_eq_true.mpr ⟨_, List.mem_of_getElem? (Option.some_get hrow).symm, hacc⟩

/-- A field that the mask keeps whole is the pattern's field. -/
theorem extract_eq_of_mask {w mask pattern : Word} (lo n : Nat) (h : w &&& mask = pattern)
    (hmask : mask.extractLsb' lo n = BitVec.allOnes n) : w.extractLsb' lo n = pattern.extractLsb' lo n := by
  rw [← h, BitVec.extractLsb'_and, hmask, BitVec.and_allOnes]

/-! A word with the fixed bits of a pattern, for the masks of the formats of R81. The fields of the pattern are closed
terms, so that `decide` finds them where a lemma is used. -/

section
variable {w p : Word} {op : BitVec 4}

theorem wordNNN_of_mask (h : w &&& 0xF000 = p) (hop : p.extractLsb' 12 4 = op := by decide) :
    wordNNN op (fieldNNN w) = w :=
  wordNNN_of_major ((extract_eq_of_mask 12 4 h rfl).trans hop)

theorem wordXNN_of_mask (h : w &&& 0xF000 = p) (hop : p.extractLsb' 12 4 = op := by decide) :
    wordXNN op (fieldX w) (fieldNN w) = w :=
  wordXNN_of_major ((extract_eq_of_mask 12 4 h rfl).trans hop)

theorem wordXYN_of_mask (h : w &&& 0xF000 = p) (hop : p.extractLsb' 12 4 = op := by decide) :
    wordXYN op (fieldX w) (fieldY w) (fieldN w) = w :=
  wordXYN_of_major ((extract_eq_of_mask 12 4 h rfl).trans hop)

theorem wordXYN_of_mask_minor {n : Fin 16} (h : w &&& 0xF00F = p) (hop : p.extractLsb' 12 4 = op := by decide)
    (hn : fieldN p = n := by decide) : wordXYN op (fieldX w) (fieldY w) n = w := by
  have hw : fieldN w = fieldN p := congrArg BitVec.toFin (extract_eq_of_mask 0 4 h rfl)
  rw [← hn, ← hw]
  exact wordXYN_of_major ((extract_eq_of_mask 12 4 h rfl).trans hop)

theorem wordXNN_of_mask_minor {nn : Byte} (h : w &&& 0xF0FF = p) (hop : p.extractLsb' 12 4 = op := by decide)
    (hnn : fieldNN p = nn := by decide) : wordXNN op (fieldX w) nn = w := by
  have hw : fieldNN w = fieldNN p := extract_eq_of_mask 0 8 h rfl
  rw [← hnn, ← hw]
  exact wordXNN_of_major ((extract_eq_of_mask 12 4 h rfl).trans hop)

end

/-- Every word the row accepts encodes an instruction. -/
def OpcodeRow.Encodes (r : OpcodeRow) : Prop := ∀ w, w &&& r.mask = r.pattern → ∃ i, encode i = w

theorem encodes_of_mem_tableControl : ∀ r ∈ tableControl, r.Encodes := by
  simp only [tableControl, List.forall_mem_cons]
  exact ⟨fun w h => ⟨.cls, by rw [← w.and_allOnes]; exact h.symm⟩,
    fun w h => ⟨.ret, by rw [← w.and_allOnes]; exact h.symm⟩,
    fun w h => ⟨.jp (fieldNNN w), wordNNN_of_mask h⟩,
    fun w h => ⟨.call (fieldNNN w), wordNNN_of_mask h⟩,
    List.forall_mem_nil _⟩

theorem encodes_of_mem_tableSkipsLoads : ∀ r ∈ tableSkipsLoads, r.Encodes := by
  simp only [tableSkipsLoads, List.forall_mem_cons]
  exact ⟨fun w h => ⟨.seImm (fieldX w) (fieldNN w), wordXNN_of_mask h⟩,
    fun w h => ⟨.sneImm (fieldX w) (fieldNN w), wordXNN_of_mask h⟩,
    fun w h => ⟨.seReg (fieldX w) (fieldY w), wordXYN_of_mask_minor h⟩,
    fun w h => ⟨.ldImm (fieldX w) (fieldNN w), wordXNN_of_mask h⟩,
    fun w h => ⟨.addImm (fieldX w) (fieldNN w), wordXNN_of_mask h⟩,
    List.forall_mem_nil _⟩

theorem encodes_of_mem_tableAlu : ∀ r ∈ tableAlu, r.Encodes := by
  simp only [tableAlu, List.forall_mem_cons]
  exact ⟨fun w h => ⟨.ldReg (fieldX w) (fieldY w), wordXYN_of_mask_minor h⟩,
    fun w h => ⟨.or (fieldX w) (fieldY w), wordXYN_of_mask_minor h⟩,
    fun w h => ⟨.and (fieldX w) (fieldY w), wordXYN_of_mask_minor h⟩,
    fun w h => ⟨.xor (fieldX w) (fieldY w), wordXYN_of_mask_minor h⟩,
    fun w h => ⟨.addReg (fieldX w) (fieldY w), wordXYN_of_mask_minor h⟩,
    fun w h => ⟨.sub (fieldX w) (fieldY w), wordXYN_of_mask_minor h⟩,
    fun w h => ⟨.shr (fieldX w) (fieldY w), wordXYN_of_mask_minor h⟩,
    fun w h => ⟨.subn (fieldX w) (fieldY w), wordXYN_of_mask_minor h⟩,
    fun w h => ⟨.shl (fieldX w) (fieldY w), wordXYN_of_mask_minor h⟩,
    fun w h => ⟨.sneReg (fieldX w) (fieldY w), wordXYN_of_mask_minor h⟩,
    List.forall_mem_nil _⟩

theorem encodes_of_mem_tableMiddle : ∀ r ∈ tableMiddle, r.Encodes := by
  simp only [tableMiddle, List.forall_mem_cons]
  exact ⟨fun w h => ⟨.ldI (fieldNNN w), wordNNN_of_mask h⟩,
    fun w h => ⟨.jpV0 (fieldNNN w), wordNNN_of_mask h⟩,
    fun w h => ⟨.rnd (fieldX w) (fieldNN w), wordXNN_of_mask h⟩,
    fun w h => ⟨.drw (fieldX w) (fieldY w) (fieldN w), wordXYN_of_mask h⟩,
    fun w h => ⟨.skp (fieldX w), wordXNN_of_mask_minor h⟩,
    fun w h => ⟨.sknp (fieldX w), wordXNN_of_mask_minor h⟩,
    List.forall_mem_nil _⟩

theorem encodes_of_mem_tableFx : ∀ r ∈ tableFx, r.Encodes := by
  simp only [tableFx, List.forall_mem_cons]
  exact ⟨fun w h => ⟨.ldVxDt (fieldX w), wordXNN_of_mask_minor h⟩,
    fun w h => ⟨.ldVxK (fieldX w), wordXNN_of_mask_minor h⟩,
    fun w h => ⟨.ldDt (fieldX w), wordXNN_of_mask_minor h⟩,
    fun w h => ⟨.ldSt (fieldX w), wordXNN_of_mask_minor h⟩,
    fun w h => ⟨.addI (fieldX w), wordXNN_of_mask_minor h⟩,
    fun w h => ⟨.ldF (fieldX w), wordXNN_of_mask_minor h⟩,
    fun w h => ⟨.ldB (fieldX w), wordXNN_of_mask_minor h⟩,
    fun w h => ⟨.ldStore (fieldX w), wordXNN_of_mask_minor h⟩,
    fun w h => ⟨.ldLoad (fieldX w), wordXNN_of_mask_minor h⟩,
    List.forall_mem_nil _⟩

theorem encodes_of_mem_opcodeRows : ∀ r ∈ opcodeRows, r.Encodes := by
  simp only [opcodeRows, List.forall_mem_append]
  exact ⟨⟨⟨⟨encodes_of_mem_tableControl, encodes_of_mem_tableSkipsLoads⟩, encodes_of_mem_tableAlu⟩,
    encodes_of_mem_tableMiddle⟩, encodes_of_mem_tableFx⟩

/-- The table accepts exactly the words that encode an instruction (R83, R85). -/
theorem wordWellFormed_iff (w : Word) : wordWellFormed w = true ↔ ∃ i, encode i = w := by
  constructor
  · intro h
    obtain ⟨r, hr, hacc⟩ := List.any_eq_true.mp h
    exact encodes_of_mem_opcodeRows r hr w (eq_of_beq hacc)
  · rintro ⟨i, rfl⟩
    exact wordWellFormed_encode i

/-- Settles O2: the decoder and the table both know exactly the words that encode an instruction. -/
theorem decoderKnowsExactlyTheTableWords : Obligations.DecoderKnowsExactlyTheTableWords := fun w =>
  Bool.eq_iff_iff.mpr ((decodeWord_isSome_iff w).trans (wordWellFormed_iff w).symm)

/-! ### The illegal words -/

theorem decode0_eq_none_iff (w : Word) : decode0 w = none ↔ w ≠ 0x00E0 ∧ w ≠ 0x00EE := by
  unfold decode0
  split
  · simp_all
  · split <;> simp_all

theorem decode8_eq_none_iff (x y n : Fin 16) :
    decode8 x y n = none ↔ n.val ∈ [0x8, 0x9, 0xA, 0xB, 0xC, 0xD, 0xF] := by
  fin_cases n <;> simp [decode8]

theorem decodeE_eq_none_iff (x : Reg) (nn : Byte) : decodeE x nn = none ↔ nn ∉ [0x9E#8, 0xA1#8] := by
  unfold decodeE
  split <;> simp_all

theorem decodeF_eq_none_iff (x : Reg) (nn : Byte) :
    decodeF x nn = none ↔ nn ∉ [0x07#8, 0x0A#8, 0x15#8, 0x18#8, 0x1E#8, 0x29#8, 0x33#8, 0x55#8, 0x65#8] := by
  unfold decodeF
  split <;> simp_all

/-- The major opcode as a number (R80). -/
theorem div_eq_of_major {w : Word} {op : BitVec 4} (h : w.extractLsb' 12 4 = op) : w.toNat / 0x1000 = op.toNat := by
  rw [← h, toNat_extract_eq]
  omega

theorem fieldN_eq_zero_iff (w : Word) : fieldN w = 0 ↔ w.toNat % 0x10 = 0 := by
  rw [Fin.ext_iff, fieldN_val]
  rfl

theorem fieldNN_eq_iff (w : Word) (nn : Byte) : fieldNN w = nn ↔ w.toNat % 0x100 = nn.toNat := by
  rw [← toNat_fieldNN, BitVec.toNat_inj]

/-- Settles O3, by the router's arms of R83: case `h_1` is major opcode 0x0, and so on to 0xF. The arms not named know
every word. -/
theorem illegalWordsAreThoseListed : Obligations.IllegalWordsAreThoseListed := by
  intro w
  have hzero : w.toNat ≤ 0x0FFF ↔ w.toNat / 0x1000 = 0 := by omega
  rw [hzero]
  unfold decodeWord
  simp only
  split
  case h_1 hw => simp [div_eq_of_major hw, decode0_eq_none_iff]
  case h_6 hw | h_10 hw => simp [div_eq_of_major hw, fieldN_eq_zero_iff]
  case h_9 hw => simp [div_eq_of_major hw, decode8_eq_none_iff, fieldN_val]
  case h_15 hw => simp [div_eq_of_major hw, decodeE_eq_none_iff, fieldNN_eq_iff]
  case h_16 =>
    have hw : w.extractLsb' 12 4 = 0xF := by
      simp only [imp_false] at *
      bv_omega
    simp [div_eq_of_major hw, decodeF_eq_none_iff, fieldNN_eq_iff]
  all_goals rename_i hw; simp [div_eq_of_major hw]

/-- Settles O4, by running the decoder on the seven words. -/
theorem wordsWrittenFromTheSpecDecode : Obligations.WordsWrittenFromTheSpecDecode := by
  unfold Obligations.WordsWrittenFromTheSpecDecode
  decide

end Sys2Proof

namespace Sys2Proof.Machine

/-! ### STEP, one equation per branch (R90, R174) -/

section
variable {s : State}

theorem step_of_fault {r : FaultRecord} (hr : s.fault = some r) : step s = .next s := by
  rw [step, hr]
  rfl

theorem step_of_fetch_error {a : Nat} (hn : s.fault = none) (hf : fetch s = .error a) :
    step s = .next (s.takeFault none (.memory a)) := by
  simp only [step, hn, hf, fetchFaultStep]

theorem step_of_unknown {w : Word} (hn : s.fault = none) (hf : fetch s = .ok w) (hd : decodeWord w = none) :
    step s = .next (s.takeFault (some w) .unknownOpcode) := by
  simp only [step, hn, hf, hd, unknownOpcodeStep]

theorem step_of_decoded {w : Word} {i : Instr} (hn : s.fault = none) (hf : fetch s = .ok w)
    (hd : decodeWord w = some i) : step s = exec i s := by
  simp only [step, hn, hf, hd]

end

/-! ### Every instruction answers a next state (log 8) -/

section
variable (s : State)

theorem exists_execRet_eq_next : ∃ t, execRet s = .next t := by
  unfold execRet
  split <;> exact ⟨_, rfl⟩

theorem exists_execCall_eq_next (nnn : BitVec 12) : ∃ t, execCall nnn s = .next t := by
  unfold execCall
  split <;> exact ⟨_, rfl⟩

theorem exists_finishKeySkip_eq_next (i : Instr) (x : Reg) (wanted : Bool) :
    ∃ t, finishKeySkip i x wanted s = .next t := by
  unfold finishKeySkip
  split <;> exact ⟨_, rfl⟩

theorem exists_execDrw_eq_next (x y : Reg) (n : Fin 16) : ∃ t, execDrw x y n s = .next t := by
  unfold execDrw
  split <;> exact ⟨_, rfl⟩

theorem exists_execLdVxK_eq_next (x : Reg) : ∃ t, execLdVxK x s = .next t := by
  unfold execLdVxK
  split <;> exact ⟨_, rfl⟩

theorem exists_addIWith_eq_next (p : OverflowPolicy) (x : Reg) : ∃ t, addIWith p x s = .next t := by
  unfold addIWith
  split <;> exact ⟨_, rfl⟩

theorem exists_storeAtIWith_eq_next (reserved : Bool) (i : Instr) (bs : List Byte) :
    ∃ t, storeAtIWith reserved i bs s = .next t := by
  unfold storeAtIWith
  split <;> exact ⟨_, rfl⟩

theorem exists_execLdLoad_eq_next (x : Reg) : ∃ t, execLdLoad x s = .next t := by
  unfold execLdLoad
  split <;> exact ⟨_, rfl⟩

/-- An instruction answers a next state from every state: the branching meanings by their lemma, the others at once. -/
theorem exists_exec_eq_next (i : Instr) : ∃ t, exec i s = .next t := by
  cases i with
  | ret => exact exists_execRet_eq_next s
  | call nnn => exact exists_execCall_eq_next s nnn
  | skp x | sknp x => exact exists_finishKeySkip_eq_next s _ x _
  | drw x y n => exact exists_execDrw_eq_next s x y n
  | ldVxK x => exact exists_execLdVxK_eq_next s x
  | addI x => exact exists_addIWith_eq_next s _ x
  | ldB x | ldStore x => exact exists_storeAtIWith_eq_next s _ _ _
  | ldLoad x => exact exists_execLdLoad_eq_next s x
  | _ => exact ⟨_, rfl⟩

theorem exists_step_eq_next : ∃ t, step s = .next t := by
  cases hs : s.fault with
  | some r => exact ⟨s, step_of_fault hs⟩
  | none =>
    cases hf : fetch s with
    | error a => exact ⟨_, step_of_fetch_error hs hf⟩
    | ok w =>
      cases hd : decodeWord w with
      | none => exact ⟨_, step_of_unknown hs hf hd⟩
      | some i =>
        rw [step_of_decoded hs hf hd]
        exact exists_exec_eq_next s i

end

/-- Settles O11, by the branches of STEP and the instructions' meanings. -/
theorem stepAlwaysAnswersNext : Obligations.StepAlwaysAnswersNext :=
  ⟨exists_step_eq_next, fun i s => exists_exec_eq_next s i⟩

/-! ### Fetch and STEP -/

/-- Settles O5: the fetch reads the bytes at PC, and STEP takes the branch of a decoded word. -/
theorem stepRunsTheDecodedInstruction : Obligations.StepRunsTheDecodedInstruction :=
  fun _ s hn hp hd => step_of_decoded hn (fetch_ok s hp) hd

/-- Settles O7: the fetch names PC, or 0x1000 where PC is 0xFFF. -/
theorem fetchOutsideTheBankFaults : Obligations.FetchOutsideTheBankFaults := by
  refine fun s hn => ⟨fun hpc => ?_, fun hpc => ?_⟩
  · have hf : fetch s = .error 0x1000 := (fetch_error_iff s _).mpr (by omega)
    exact step_of_fetch_error hn hf
  · have hf : fetch s = .error s.pc.toNat := (fetch_error_iff s _).mpr (by omega)
    rw [step_of_fetch_error hn hf, State.takeFault, FaultCause.record, BitVec.ofNat_toNat, BitVec.setWidth_eq]

/-- Settles O8: the branch of STEP for a word the decoder does not know. -/
theorem unknownWordHaltsTheMachine : Obligations.UnknownWordHaltsTheMachine :=
  fun _ _ hn hf hd => step_of_unknown hn hf hd

/-! ### An instruction placed where it is fetched (log 10) -/

/-- An opcode-table word of 16 bits is the word itself. -/
theorem tableWord_toNat (w : Word) : tableWord 16 w.toNat = w := by
  rw [tableWord, Nat.mod_eq_of_lt w.isLt, BitVec.ofNat_toNat, BitVec.setWidth_eq]

/-- The fetch reads the word placed at PC (R60). -/
theorem fetch_placeWord {s : State} (hp : s.pc.toNat ≤ 0xFFE) (w : Word) : fetch (s.placeWord w) = .ok w := by
  have hhi : (s.placeWord w).mem.read s.pc.toNat = w.extractLsb' 8 8 :=
    s.mem.read_writeBytes_add s.pc.toNat (bytesOfWord w) 0 (by simp [bytesOfWord])
  have hlo : (s.placeWord w).mem.read (s.pc.toNat + 1) = w.extractLsb' 0 8 :=
    s.mem.read_writeBytes_add s.pc.toNat (bytesOfWord w) 1 (by simp [bytesOfWord])
  have hf := fetch_ok (s.placeWord w) hp
  rwa [show (s.placeWord w).pc = s.pc from rfl, hhi, hlo, wordOfBytes_bytes] at hf

/-- `withFetchWord` clears the fault. -/
theorem State.withFetchWord_fault (s : State) (nbits w : Nat) : (s.withFetchWord nbits w).fault = none := rfl

/-- `withFetchWord` leaves a PC that a fetch can read, and places the word there. -/
theorem fetch_withFetchWord (s : State) (nbits w : Nat) :
    fetch (s.withFetchWord nbits w) = .ok (tableWord nbits w) := by
  refine fetch_placeWord ?_ _
  by_cases hp : s.pc.toNat < Config.addrMax
  · simp only [if_pos hp]
    exact Nat.le_of_lt_succ hp
  · simp only [if_neg hp]
    decide

/-- Settles O59: the next STEP fetches the placed word, which decodes to its instruction. -/
theorem placedInstructionIsTheOneRun : Obligations.PlacedInstructionIsTheOneRun := by
  intro i s
  have hf : fetch (s.withFetchWord 16 (encode i).toNat) = .ok (encode i) := by
    rw [fetch_withFetchWord, tableWord_toNat]
  exact step_of_decoded (s.withFetchWord_fault _ _) hf (decodeWord_encode i)

end Sys2Proof.Machine
end

section
/-! PROOFS. The statements about the display, and the faults of the instructions that read at I (spec/41_display.md). -/

namespace Sys2Proof.Machine

/-! ### CheckRead over the bytes at I (R52, R174) -/

section
variable {s : State} {x y : Reg} {n : Fin 16} {k m : Nat}

theorem firstBad_readOk_of_readable (hr : ∀ j < m, Readable (s.ea + j)) : firstBad readOk s.ea m = none :=
  (firstBad_eq_none_iff _ _ _).mpr fun j hj => (readOk_iff _).mpr (hr j hj)

theorem firstBad_readOk_of_not_readable (hk : k < m) (hr : ∀ j < k, Readable (s.ea + j))
    (hbad : ¬ Readable (s.ea + k)) : firstBad readOk s.ea m = some (s.ea + k) := by
  have hfail : readOk (s.ea + k) = false := Bool.eq_false_of_not_eq_true fun h => hbad ((readOk_iff _).mp h)
  exact (firstBad_eq_some_iff _ _ _ _).mpr ⟨k, hk, rfl, hfail, fun j hj => (readOk_iff _).mpr (hr j hj)⟩

/-- DXYN takes a MemoryFault at the lowest address it cannot read (R101). -/
theorem exec_drw_of_not_readable (hk : k < n.val) (hr : ∀ j < k, Readable (s.ea + j))
    (hbad : ¬ Readable (s.ea + k)) :
    exec (.drw x y n) s = raise (.drw x y n) (.memory (s.ea + k)) s := by
  show execDrw x y n s = _
  rw [execDrw, firstBad_readOk_of_not_readable hk hr hbad]

/-- FX65 takes a MemoryFault at the lowest address it cannot read (R155). -/
theorem exec_ldLoad_of_not_readable (hk : k ≤ x.val) (hr : ∀ j < k, Readable (s.ea + j))
    (hbad : ¬ Readable (s.ea + k)) :
    exec (.ldLoad x) s = raise (.ldLoad x) (.memory (s.ea + k)) s := by
  show execLdLoad x s = _
  rw [execLdLoad, firstBad_readOk_of_not_readable (Nat.lt_succ_of_le hk) hr hbad]

end

/-- Settles O15: both instructions check their addresses in ascending order before they write. -/
theorem readsFaultAtTheLowestAddress : Obligations.ReadsFaultAtTheLowestAddress :=
  fun _ _ _ _ _ hr hbad =>
    ⟨fun hk => exec_drw_of_not_readable hk hr hbad, fun hk => exec_ldLoad_of_not_readable hk hr hbad⟩

/-! ### The state after a sprite is drawn -/

/-- The state after DXYN has drawn its sprite (R101): what `exec` answers while CheckRead passes
(`exec_drw_of_readable`). -/
def State.drawn (s : State) (x y : Reg) (n : Fin 16) : State :=
  (s.advance.setFrame (s.drawSprite x y n).fb).setFlag (s.drawSprite x y n).hit

section
variable {s : State} {x y : Reg} {n : Fin 16} {px : Fin 64} {py : Fin 32}

theorem exec_drw_of_readable (hr : ∀ row < n.val, Readable (s.ea + row)) :
    exec (.drw x y n) s = .next (s.drawn x y n) := by
  show execDrw x y n s = _
  rw [execDrw, firstBad_readOk_of_readable hr]
  rfl

theorem State.get_drawn_of_touches (h : SpriteTouches s x y n px py) :
    (s.drawn x y n).fb.get px py = !s.fb.get px py := (s.drawSprite_draws x y n).inside px py h

theorem State.get_drawn_of_not_touches (h : ¬ SpriteTouches s x y n px py) :
    (s.drawn x y n).fb.get px py = s.fb.get px py := (s.drawSprite_draws x y n).outside px py h

/-- The collision noted by the loops: the sprite touches a lit pixel (R101). -/
theorem State.drawSprite_hit_iff :
    (s.drawSprite x y n).hit = true ↔ ∃ px py, SpriteTouches s x y n px py ∧ s.fb.get px py = true := by
  simpa using (s.drawSprite_draws x y n).hit

theorem State.reg_vf_drawn : (s.drawn x y n).reg 15 = flagByte (s.drawSprite x y n).hit := by
  rw [State.drawn, State.reg_setFlag, if_pos rfl]

theorem State.reg_drawn_of_ne {r : Reg} (h : r ≠ 15) : (s.drawn x y n).reg r = s.reg r := by
  rw [State.drawn, State.reg_setFlag, if_neg h, State.reg_setFrame, State.reg_advance]

theorem State.reg_vf_drawn_of_collision
    (h : ∃ px py, SpriteTouches s x y n px py ∧ s.fb.get px py = true) : (s.drawn x y n).reg 15 = 1 := by
  rw [State.reg_vf_drawn, State.drawSprite_hit_iff.mpr h]
  rfl

theorem State.reg_vf_drawn_of_no_collision
    (h : ¬ ∃ px py, SpriteTouches s x y n px py ∧ s.fb.get px py = true) : (s.drawn x y n).reg 15 = 0 := by
  rw [State.reg_vf_drawn, Bool.eq_false_of_not_eq_true fun hhit => h (State.drawSprite_hit_iff.mp hhit)]
  rfl

end

/-- Settles O14: the drawn state pixel by pixel and register by register. -/
theorem drwXorsTheSpriteAndSetsCollision : Obligations.DrwXorsTheSpriteAndSetsCollision :=
  fun x y n s hr => ⟨decodeWord_encode (.drw x y n), (s.drawn x y n).v, (s.drawn x y n).fb, exec_drw_of_readable hr,
    fun _ _ => State.get_drawn_of_touches, fun _ _ => State.get_drawn_of_not_touches,
    State.reg_vf_drawn_of_collision, State.reg_vf_drawn_of_no_collision, fun _ => State.reg_drawn_of_ne⟩

/-! ### Drawing a sprite twice -/

section
variable {s : State} {x y : Reg} {n : Fin 16}

/-- Drawing keeps what a sprite is made of, unless VF is a coordinate register: the second draw has the same sprite. -/
theorem spriteTouches_drawn_iff (hx : x ≠ 15) (hy : y ≠ 15) (px : Fin 64) (py : Fin 32) :
    SpriteTouches (s.drawn x y n) x y n px py ↔ SpriteTouches s x y n px py := by
  rw [SpriteTouches, State.reg_drawn_of_ne hx, State.reg_drawn_of_ne hy]
  rfl

/-- Each touched pixel is inverted twice, and no other is changed (R101). -/
theorem State.get_drawn_drawn (hx : x ≠ 15) (hy : y ≠ 15) (px : Fin 64) (py : Fin 32) :
    ((s.drawn x y n).drawn x y n).fb.get px py = s.fb.get px py := by
  have hsame := spriteTouches_drawn_iff (s := s) (n := n) hx hy px py
  by_cases h : SpriteTouches s x y n px py
  · rw [State.get_drawn_of_touches (hsame.mpr h), State.get_drawn_of_touches h, Bool.not_not]
  · rw [State.get_drawn_of_not_touches (mt hsame.mp h), State.get_drawn_of_not_touches h]

/-- A sprite drawn on an unlit pixel lights it, so that the second draw collides there. -/
theorem State.reg_vf_drawn_drawn (hx : x ≠ 15) (hy : y ≠ 15) {px : Fin 64} {py : Fin 32}
    (ht : SpriteTouches s x y n px py) (hunlit : s.fb.get px py = false) :
    ((s.drawn x y n).drawn x y n).reg 15 = 1 := by
  have hlit : (s.drawn x y n).fb.get px py = true := by rw [State.get_drawn_of_touches ht, hunlit, Bool.not_false]
  exact State.reg_vf_drawn_of_collision ⟨px, py, (spriteTouches_drawn_iff hx hy px py).mpr ht, hlit⟩

end

/-- Settles O55: the second draw reads the same sprite bytes, so CheckRead passes again. -/
theorem drawingTwiceErasesTheSprite : Obligations.DrawingTwiceErasesTheSprite := by
  intro x y n s hx hy hr
  have hr' : ∀ row < n.val, Readable ((s.drawn x y n).ea + row) := hr
  refine ⟨_, _, exec_drw_of_readable hr, exec_drw_of_readable hr', State.get_drawn_drawn hx hy, ?_⟩
  rintro hunlit ⟨px, py, ht⟩
  refine ⟨State.reg_vf_drawn_of_no_collision ?_, State.reg_vf_drawn_drawn hx hy ht (hunlit px py ht)⟩
  rintro ⟨qx, qy, htouch, hlit⟩
  exact Bool.false_ne_true ((hunlit qx qy htouch).symm.trans hlit)

/-! ### Clearing the screen -/

/-- Settles O13: the new framebuffer is the blank one. -/
theorem clsClearsTheFramebuffer : Obligations.ClsClearsTheFramebuffer :=
  fun _ => ⟨decodeWord_encode .cls, Frame.blank, rfl, Frame.get_blank⟩

end Sys2Proof.Machine
end

section
/-! PROOFS. The statements about the control transfers: RET, JP, CALL and JP V0 (spec/42_control_flow.md). -/

namespace Sys2Proof.Machine

/-! ### The stack operations at an entry: SP − 1 names the entry popped, SP the entry pushed (R110, R112) -/

/-- The stack after one entry is set (R25). -/
theorem get_set_stack (stack : Vector Word 16) (k j : Fin 16) (w : Word) :
    (stack.set k w).get j = if j = k then w else stack.get j := by
  simp only [Vector.get_eq_getElem, Vector.getElem_set, Fin.ext_iff, eq_comm]

section
variable {s : State} {k : Fin 16}

theorem State.sp_sub_one_of_eq_succ (h : s.sp = k.succ) : s.sp.val - 1 = k.val := by
  rw [h, Fin.val_succ, Nat.add_sub_cancel]

theorem State.top_of_sp_eq_succ (h : s.sp = k.succ) : s.top = s.stack.get k :=
  congrArg s.stack.get (Fin.ext (State.sp_sub_one_of_eq_succ h))

theorem State.drop_of_sp_eq_succ (h : s.sp = k.succ) : s.drop = { s with sp := k.castSucc } := by
  simp only [State.drop, State.sp_sub_one_of_eq_succ h]
  rfl

theorem State.push_of_sp_eq_castSucc (h : s.sp = k.castSucc) (w : Word) :
    s.push w = { s with stack := s.stack.set k w, sp := k.succ } := by
  have hval : s.sp.val = k.val := by rw [h, Fin.val_castSucc]
  simp only [State.push, hval, k.isLt, dite_true]
  rfl

end

/-! ### RET and CALL, one equation per branch (R110, R112) -/

section
variable {s : State}

theorem exec_ret_of_sp_ne_zero (h : s.sp ≠ 0) : exec .ret s = .next (s.drop.setPc s.top) := if_neg h

theorem exec_ret_of_sp_eq_zero (h : s.sp = 0) : exec .ret s = raise .ret .stackUnderflow s := if_pos h

theorem exec_call_of_sp_ne_sixteen (nnn : BitVec 12) (h : s.sp ≠ 16) :
    exec (.call nnn) s = .next ((s.push (s.pc + 2)).setPc (address nnn)) := if_neg h

theorem exec_call_of_sp_eq_sixteen (nnn : BitVec 12) (h : s.sp = 16) :
    exec (.call nnn) s = raise (.call nnn) .stackOverflow s := if_pos h

end

/-- Settles O17: SP above 0 names the popped entry, SP = 0 is the empty stack. -/
theorem retPopsTheStack : Obligations.RetPopsTheStack := by
  refine fun s => ⟨decodeWord_encode .ret, fun k hk => ?_, fun h => ⟨_, exec_ret_of_sp_eq_zero h, rfl⟩⟩
  have hne : s.sp ≠ 0 := hk ▸ Fin.succ_ne_zero k
  rw [exec_ret_of_sp_ne_zero hne, State.top_of_sp_eq_succ hk, State.drop_of_sp_eq_succ hk, State.setPc]

/-- Settles O19: SP below 16 names the pushed entry, SP = 16 is the full stack. -/
theorem callPushesTheReturnAddress : Obligations.CallPushesTheReturnAddress := by
  refine fun nnn s => ⟨decodeWord_encode (.call nnn), fun k hk => ?_,
    fun h => ⟨_, exec_call_of_sp_eq_sixteen nnn h, rfl⟩⟩
  have hne : s.sp ≠ 16 := hk ▸ Fin.castSucc_ne_last k
  refine ⟨address nnn, s.stack.set k (s.pc + 2), address_toNat nnn, ?_, fun j => get_set_stack s.stack k j _⟩
  rw [exec_call_of_sp_ne_sixteen nnn hne, State.push_of_sp_eq_castSucc hk, State.setPc]

/-! ### The jumps -/

/-- V0 + NNN is at most 0x10FE, so the 16-bit sum does not wrap (R113). -/
theorem toNat_add_address (b : Byte) (nnn : BitVec 12) :
    (b.zeroExtend 16 + address nnn).toNat = b.toNat + nnn.toNat := by
  simp only [BitVec.toNat_add, address_toNat, BitVec.truncate_eq_setWidth, BitVec.toNat_setWidth]
  omega

/-- Settles O18: the new PC is NNN zero-extended. -/
theorem jpSetsThePc : Obligations.JpSetsThePc :=
  fun nnn _ => ⟨decodeWord_encode (.jp nnn), address nnn, address_toNat nnn, rfl⟩

/-- Settles O20: the new PC is the 16-bit sum, which does not wrap. -/
theorem jpV0AddsV0 : Obligations.JpV0AddsV0 :=
  fun nnn s => ⟨decodeWord_encode (.jpV0 nnn), _, toNat_add_address (s.reg 0) nnn, rfl⟩

end Sys2Proof.Machine
end

section
/-! PROOFS. The statements about the conditional skips (spec/43_skips.md). -/

namespace Sys2Proof

/-! ### The words of the register skips -/

/-- Major opcode 0x5 is an instruction for the low nibble 0 only (R83, R85). -/
theorem decodeWord_wordXYN_5 (x y n : Fin 16) :
    decodeWord (wordXYN 0x5 x y n) = if n = 0 then some (.seReg x y) else none := by
  simp [decodeWord]

/-- Major opcode 0x9 is an instruction for the low nibble 0 only (R83, R85). -/
theorem decodeWord_wordXYN_9 (x y n : Fin 16) :
    decodeWord (wordXYN 0x9 x y n) = if n = 0 then some (.sneReg x y) else none := by
  simp [decodeWord]

end Sys2Proof

namespace Sys2Proof.Machine

/-! ### A skip on a comparison (R93) -/

section
variable {α : Type} [DecidableEq α] (s : State) (a b : α)

theorem finishSkip_beq :
    finishSkip (a == b) s = .next { s with pc := if a = b then s.pc + 4 else s.pc + 2 } := by
  simp only [finishSkip, State.advance_skipIf, beq_iff_eq]

theorem finishSkip_bne :
    finishSkip (a != b) s = .next { s with pc := if a = b then s.pc + 2 else s.pc + 4 } := by
  simp only [finishSkip, State.advance_skipIf, bne_iff_ne, ite_not]

end

/-- Settles O21: the skip is on a comparison of Vx with NN. -/
theorem immediateSkipsCompareWithNN : Obligations.ImmediateSkipsCompareWithNN :=
  fun x nn s => ⟨decodeWord_encode (.seImm x nn), decodeWord_encode (.sneImm x nn),
    finishSkip_beq s (s.reg x) nn, finishSkip_bne s (s.reg x) nn⟩

/-- Settles O22: the skip is on a comparison of Vx with Vy, and a word with another low nibble takes STEP's branch of an
unknown word. -/
theorem registerSkipsCompareRegisters : Obligations.RegisterSkipsCompareRegisters := by
  intro x y s
  have h5 (n : Fin 16) (hn : n ≠ 0) : decodeWord (wordXYN 0x5 x y n) = none :=
    (decodeWord_wordXYN_5 x y n).trans (if_neg hn)
  have h9 (n : Fin 16) (hn : n ≠ 0) : decodeWord (wordXYN 0x9 x y n) = none :=
    (decodeWord_wordXYN_9 x y n).trans (if_neg hn)
  refine ⟨decodeWord_encode (.seReg x y), decodeWord_encode (.sneReg x y), fun n hn => ⟨h5 n hn, h9 n hn⟩, ?_,
    finishSkip_beq s (s.reg x) (s.reg y), finishSkip_bne s (s.reg x) (s.reg y)⟩
  rintro n hn hfault (hf | hf)
  · exact ⟨_, step_of_unknown hfault hf (h5 n hn), rfl⟩
  · exact ⟨_, step_of_unknown hfault hf (h9 n hn), rfl⟩

/-! ### The key a register selects, by the value of KEY_INDEX_OOR (R126) -/

section
variable {b : Byte} {k : Reg}

/-- A value up to 0xF selects its own key under either value of KEY_INDEX_OOR. -/
theorem keyIndexWith_of_toNat_eq (p : KeyIndexPolicy) (h : b.toNat = k.val) : keyIndexWith p b = some k := by
  have hlt : b.toNat < 16 := h ▸ k.isLt
  exact (dif_pos hlt).trans (congrArg some (Fin.ext h))

theorem keyIndexWith_lowNibble_of_lt (h : 0xF < b.toNat) (hk : k.val = b.toNat % 16) :
    keyIndexWith .lowNibble b = some k := by
  have hnibble : (b.extractLsb' 0 4).toFin = k :=
    Fin.ext (by rw [hk, BitVec.val_toFin, toNat_extract_eq, Nat.pow_zero, Nat.div_one]; rfl)
  rw [keyIndexWith, dif_neg (not_lt.mpr h), hnibble]

theorem keyIndexWith_fault_of_lt (h : 0xF < b.toNat) : keyIndexWith .fault b = none :=
  dif_neg (not_lt.mpr h)

end

/-! ### The key skips, one equation per branch (R124, R125) -/

section
variable {s : State} {x k : Reg}

theorem finishKeySkip_of_keyIndex_eq_some (i : Instr) (wanted : Bool) (h : keyIndex (s.reg x) = some k) :
    finishKeySkip i x wanted s = finishSkip (s.pressed k == wanted) s := by
  rw [finishKeySkip, h]

theorem finishKeySkip_of_keyIndex_eq_none (i : Instr) (wanted : Bool) (h : keyIndex (s.reg x) = none) :
    finishKeySkip i x wanted s = raise i (.keyIndex (s.reg x)) s := by
  rw [finishKeySkip, h]

theorem exec_skp_of_keyIndex_eq_some (h : keyIndex (s.reg x) = some k) :
    exec (.skp x) s = .next { s with pc := if s.key.get k then s.pc + 4 else s.pc + 2 } :=
  (finishKeySkip_of_keyIndex_eq_some _ true h).trans (finishSkip_beq s (s.key.get k) true)

theorem exec_sknp_of_keyIndex_eq_some (h : keyIndex (s.reg x) = some k) :
    exec (.sknp x) s = .next { s with pc := if s.key.get k then s.pc + 2 else s.pc + 4 } := by
  have hnot : ∀ c : Bool, (c == false) = (c != true) := by decide
  rw [← finishSkip_bne, ← hnot]
  exact finishKeySkip_of_keyIndex_eq_some _ false h

end

/-- Settles O23, by the value of Vx and then the two values of KEY_INDEX_OOR: a selected key is tested, and none selected
is the fault. -/
theorem keySkipsTestTheLatch : Obligations.KeySkipsTestTheLatch := by
  refine fun x s => ⟨decodeWord_encode (.skp x), decodeWord_encode (.sknp x), fun k hk => ?_, fun hlarge => ?_⟩
  · have hkey : keyIndex (s.reg x) = some k := keyIndexWith_of_toNat_eq _ hk
    exact ⟨exec_skp_of_keyIndex_eq_some hkey, exec_sknp_of_keyIndex_eq_some hkey⟩
  · split
    next hp =>
      intro k hk
      have hkey : keyIndex (s.reg x) = some k := by rw [keyIndex, hp, keyIndexWith_lowNibble_of_lt hlarge hk]
      exact ⟨exec_skp_of_keyIndex_eq_some hkey, exec_sknp_of_keyIndex_eq_some hkey⟩
    next hp =>
      have hkey : keyIndex (s.reg x) = none := by rw [keyIndex, hp, keyIndexWith_fault_of_lt hlarge]
      exact ⟨finishKeySkip_of_keyIndex_eq_none _ true hkey, finishKeySkip_of_keyIndex_eq_none _ false hkey⟩

end Sys2Proof.Machine
end

section
/-! PROOFS. The statements about the register loads and the ALU (spec/44_alu.md). -/

namespace Sys2Proof.Machine

/-! ### What an instruction of the ALU leaves in the registers (R12, R211)

Every such instruction ends in `finishReg`, or in `finishRegFlag` where it writes a flag. -/

section
variable (x : Reg) (b : Byte) (f : Bool) (s : State)

/-- A write of Vx and no flag: PC and Vx change, and nothing else. -/
theorem finishReg_writes :
    ∃ v, finishReg x b s = .next { s with pc := s.pc + 2, v := v } ∧
      ∀ r, Vector.get v r = if r = x then b else s.reg r :=
  ⟨s.v.set x b, rfl, fun r => get_set_reg s.v x r b⟩

/-- A write of Vx and then VF: VF holds the flag even if it is Vx (D14), and beside PC, Vx and VF nothing changes. -/
theorem finishRegFlag_writes :
    ∃ v, finishRegFlag x b f s = .next { s with pc := s.pc + 2, v := v } ∧ Vector.get v 15 = flagByte f ∧
      (x ≠ 15 → v.get x = b) ∧ ∀ r, r ≠ x → r ≠ 15 → v.get r = s.reg r := by
  have hreg (r : Reg) : ((s.advance.setReg x b).setFlag f).reg r =
      if r = 15 then flagByte f else if r = x then b else s.reg r := by
    rw [State.reg_setFlag, State.reg_setReg, State.reg_advance]
  refine ⟨((s.advance.setReg x b).setFlag f).v, rfl, (hreg 15).trans (if_pos rfl), fun hx => ?_, fun r hr hvf => ?_⟩
  · exact (hreg x).trans ((if_neg hx).trans (if_pos rfl))
  · exact (hreg r).trans ((if_neg hvf).trans (if_neg hr))

end

/-! ### The flags and the results as numbers (R130) -/

section
variable (a b : Byte)

theorem flagByte_carry : flagByte (carry a b) = if 255 < a.toNat + b.toNat then 1 else 0 := by
  simp only [flagByte, carry, decide_eq_true_iff, gt_iff_lt]

theorem flagByte_noBorrow : flagByte (noBorrow a b) = if b.toNat ≤ a.toNat then 1 else 0 := by
  simp only [flagByte, noBorrow, decide_eq_true_iff, ge_iff_le]

theorem toNat_flagByte (f : Bool) : (flagByte f).toNat = f.toNat := by
  cases f <;> rfl

theorem toNat_flagByte_lowBit : (flagByte (lowBit a)).toNat = a.toNat % 2 := by
  rw [toNat_flagByte, lowBit, ← BitVec.testBit_toNat, Nat.toNat_testBit, Nat.pow_zero, Nat.div_one]

/-- A byte is below 256, so its quotient by 128 is its bit 7. -/
theorem toNat_flagByte_highBit : (flagByte (highBit a)).toNat = a.toNat / 128 := by
  rw [toNat_flagByte, highBit, ← BitVec.testBit_toNat, Nat.toNat_testBit]
  omega

theorem toNat_byte_sub : (a - b).toNat = (256 + a.toNat - b.toNat) % 256 := by
  rw [BitVec.toNat_sub]
  omega

theorem toNat_byte_shiftRight_one : (a >>> 1).toNat = a.toNat / 2 := by
  rw [BitVec.toNat_ushiftRight, Nat.shiftRight_eq_div_pow, Nat.pow_one]

theorem toNat_byte_shiftLeft_one : (a <<< 1).toNat = a.toNat * 2 % 256 := by
  rw [BitVec.toNat_shiftLeft, Nat.shiftLeft_eq, Nat.pow_one]

end

/-! ### Loads, the immediate sum and the logic operations: Vx and no flag -/

/-- Settles O24: NN is loaded, or added in 8 bits. -/
theorem immediateLoadAndAddWriteOnlyVx : Obligations.ImmediateLoadAndAddWriteOnlyVx := by
  intro x nn s
  obtain ⟨v, hv, hreg⟩ := finishReg_writes x (s.reg x + nn) s
  refine ⟨decodeWord_encode (.ldImm x nn), decodeWord_encode (.addImm x nn), finishReg_writes x nn s,
    v, hv, ?_, fun r hr => (hreg r).trans (if_neg hr)⟩
  rw [hreg, if_pos rfl, BitVec.toNat_add]

/-- Settles O25: the byte written to Vx is Vy's. -/
theorem registerLoadCopiesVy : Obligations.RegisterLoadCopiesVy :=
  fun x y s => ⟨decodeWord_encode (.ldReg x y), finishReg_writes x (s.reg y) s⟩

/-- A write of Vx whose bits are known. -/
theorem finishReg_writes_bits (x : Reg) (b : Byte) (s : State) {bit : Nat → Bool} (hb : ∀ k, b.getLsbD k = bit k) :
    ∃ v, finishReg x b s = .next { s with pc := s.pc + 2, v := v } ∧ (∀ r, r ≠ x → Vector.get v r = s.reg r) ∧
      ∀ k, (Vector.get v x).getLsbD k = bit k := by
  obtain ⟨v, hv, hreg⟩ := finishReg_writes x b s
  refine ⟨v, hv, fun r hr => (hreg r).trans (if_neg hr), fun k => ?_⟩
  rw [hreg, if_pos rfl, hb]

/-- Settles O26: the operations on bytes are those on their bits. -/
theorem logicOperationsActBitByBit : Obligations.LogicOperationsActBitByBit :=
  fun x y s => ⟨decodeWord_encode (.or x y), decodeWord_encode (.and x y), decodeWord_encode (.xor x y),
    finishReg_writes_bits x _ s fun _ => BitVec.getLsbD_or, finishReg_writes_bits x _ s fun _ => BitVec.getLsbD_and,
    finishReg_writes_bits x _ s fun _ => BitVec.getLsbD_xor⟩

/-- Settles O30: the byte is the one of this draw, and the counter of draws is the one thing else that changes. -/
theorem rndMasksTheRandomByte : Obligations.RndMasksTheRandomByte := by
  intro x nn s
  obtain ⟨v, hv, hframe, hbits⟩ := finishReg_writes_bits x (Config.randomByte s.draws &&& nn) s.nextDraw
    fun _ => BitVec.getLsbD_and
  exact ⟨decodeWord_encode (.rnd x nn), v, hv, hbits, hframe⟩

/-! ### Sum, differences and shifts: Vx, then VF -/

/-- Settles O27: the flag is the carry of the unbounded sum. -/
theorem addSetsCarry : Obligations.AddSetsCarry := by
  intro x y s
  obtain ⟨v, hv, hflag, hx, hframe⟩ :=
    finishRegFlag_writes x (s.reg x + s.reg y) (carry (s.reg x) (s.reg y)) s
  refine ⟨decodeWord_encode (.addReg x y), v, hv, hflag.trans (flagByte_carry _ _), fun h => ?_, hframe⟩
  rw [hx h, BitVec.toNat_add]

/-- The common form of 8XY5 and 8XY7: a − b is written to Vx, and then VF (R138, R140). -/
theorem finishRegFlag_sub (x : Reg) (a b : Byte) (s : State) :
    ∃ v, finishRegFlag x (a - b) (noBorrow a b) s = .next { s with pc := s.pc + 2, v := v } ∧
      Vector.get v 15 = (if b.toNat ≤ a.toNat then 1 else 0) ∧
      (x ≠ 15 → (v.get x).toNat = (256 + a.toNat - b.toNat) % 256) ∧ ∀ r, r ≠ x → r ≠ 15 → v.get r = s.reg r := by
  obtain ⟨v, hv, hflag, hx, hframe⟩ := finishRegFlag_writes x (a - b) (noBorrow a b) s
  refine ⟨v, hv, hflag.trans (flagByte_noBorrow a b), fun h => ?_, hframe⟩
  rw [hx h, toNat_byte_sub]

/-- Settles O28: 8XY5 and 8XY7 are one subtraction with the operands exchanged. -/
theorem subtractionsSetNoBorrow : Obligations.SubtractionsSetNoBorrow :=
  fun x y s => ⟨decodeWord_encode (.sub x y), decodeWord_encode (.subn x y),
    finishRegFlag_sub x (s.reg x) (s.reg y) s, finishRegFlag_sub x (s.reg y) (s.reg x) s⟩

/-- Settles O29: the bit shifted out is the remainder of a division by 2, or the quotient of one by 128. -/
theorem shiftsSetTheBitShiftedOut : Obligations.ShiftsSetTheBitShiftedOut := by
  intro x y s
  refine ⟨decodeWord_encode (.shr x y), decodeWord_encode (.shl x y), ?_, ?_⟩
  · obtain ⟨v, hv, hflag, hx, hframe⟩ := finishRegFlag_writes x (s.reg x >>> 1) (lowBit (s.reg x)) s
    refine ⟨v, hv, ?_, fun h => ?_, hframe⟩
    · rw [hflag, toNat_flagByte_lowBit]
    · rw [hx h, toNat_byte_shiftRight_one]
  · obtain ⟨v, hv, hflag, hx, hframe⟩ := finishRegFlag_writes x (s.reg x <<< 1) (highBit (s.reg x)) s
    refine ⟨v, hv, ?_, fun h => ?_, hframe⟩
    · rw [hflag, toNat_flagByte_highBit]
    · rw [hx h, toNat_byte_shiftLeft_one]

end Sys2Proof.Machine
end

section
/-! PROOFS. The statements about the index register and the instructions that access memory at I
(spec/45_index_memory.md). -/

namespace Sys2Proof.Machine

/-! ### A store that fails CheckWrite (R52, R174) -/

/-- A store takes a MemoryFault at the lowest address it cannot write, with nothing written (R153, R154). -/
theorem storeAtIWith_of_not_writable {s : State} {bs : List Byte} {k : Nat} (i : Instr) (hk : k < bs.length)
    (hw : ∀ j < k, Writable (s.ea + j)) (hbad : ¬ Writable (s.ea + k)) :
    storeAtIWith reservedWriteFault i bs s = raise i (.memory (s.ea + k)) s := by
  have hfail : writeOkWith reservedWriteFault (s.ea + k) = false :=
    Bool.eq_false_of_not_eq_true fun h => hbad ((writeOkWith_iff _ _).mp h)
  have hfirst : firstBad (writeOkWith reservedWriteFault) s.ea bs.length = some (s.ea + k) :=
    (firstBad_eq_some_iff _ _ _ _).mpr ⟨k, hk, rfl, hfail, fun j hj => (writeOkWith_iff _ _).mpr (hw j hj)⟩
  rw [storeAtIWith, hfirst]

/-- Settles O16: FX33 and FX55 are one store, of three bytes and of x + 1 bytes. -/
theorem writesFaultAtTheLowestAddress : Obligations.WritesFaultAtTheLowestAddress := by
  refine fun x s k hw hbad => ⟨fun hk => ?_, fun hk => ?_⟩
  · exact storeAtIWith_of_not_writable (bs := bcdDigits (s.reg x)) _ hk hw hbad
  · have hlen : k < (s.regsUpTo x).length := (s.length_regsUpTo x).symm ▸ Nat.lt_succ_of_le hk
    exact storeAtIWith_of_not_writable _ hlen hw hbad

/-! ### The stores -/

/-- A number that fits the width is kept. -/
theorem toNat_ofNat_of_lt {w n : Nat} (h : n < 2 ^ w) : (BitVec.ofNat w n).toNat = n :=
  (BitVec.toNat_ofNat n w).trans (Nat.mod_eq_of_lt h)

/-- Settles O34: the store is one run of three writes from I on, and each digit is below 256, so that its byte holds
it. -/
theorem ldBStoresTheDigits : Obligations.LdBStoresTheDigits := by
  intro x s hw
  have hread (k : Nat) (hk : k < 3) :
      ((s.mem.writeBytes s.ea (bcdDigits (s.reg x))).read (s.ea + k)).toNat =
        ((bcdDigits (s.reg x))[k]'hk).toNat :=
    congrArg BitVec.toNat (s.mem.read_writeBytes_add s.ea (bcdDigits (s.reg x)) k hk)
  refine ⟨decodeWord_encode (.ldB x), s.mem.writeBytes s.ea (bcdDigits (s.reg x)),
    storeAtIWith_of_writable (bs := bcdDigits (s.reg x)) _ hw, (hread 0 (by decide)).trans ?_,
    (hread 1 (by decide)).trans ?_, (hread 2 (by decide)).trans ?_, fun _ ha => s.mem.read_writeBytes_outside ha⟩
  · exact toNat_ofNat_of_lt (by omega)
  · exact toNat_ofNat_of_lt (by omega)
  · exact toNat_ofNat_of_lt (by omega)

/-- Settles O35: the store is one run of x + 1 writes from I on. -/
theorem ldStoreStoresV0ToVx : Obligations.LdStoreStoresV0ToVx := by
  refine fun x s hw => ⟨decodeWord_encode (.ldStore x), s.mem.writeBytes s.ea (s.regsUpTo x),
    exec_ldStore_of_writable hw, fun r hr => Memory.read_storedRegs s x r hr, fun a ha => ?_⟩
  have hout : a < s.ea ∨ s.ea + (s.regsUpTo x).length ≤ a := by rw [State.length_regsUpTo]; omega
  exact s.mem.read_writeBytes_outside hout

/-! ### The load -/

/-- FX65 at readable addresses loads V0 to Vx and advances PC (R155). -/
theorem exec_ldLoad_of_readable {s : State} {x : Reg} (hr : ∀ k ≤ x.val, Readable (s.ea + k)) :
    exec (.ldLoad x) s = .next (s.advance.setRegsUpTo x fun k => s.mem.read (s.ea + k)) := by
  show execLdLoad x s = _
  rw [execLdLoad, firstBad_readOk_of_readable fun j hj => hr j (Nat.le_of_lt_succ hj)]

/-- Settles O36: the registers after the load, one by one. -/
theorem ldLoadLoadsV0ToVx : Obligations.LdLoadLoadsV0ToVx :=
  fun x s hr => ⟨decodeWord_encode (.ldLoad x), _, exec_ldLoad_of_readable hr,
    fun r => s.advance.reg_setRegsUpTo x r fun k => s.mem.read (s.ea + k)⟩

/-- Settles O54: an address that can be written can be read, and the load finds V0 to Vx of the store there. -/
theorem storeThenLoadRestoresTheRegisters : Obligations.StoreThenLoadRestoresTheRegisters := by
  refine fun x s u hw => ⟨_, exec_ldStore_of_writable hw, fun hmem hi => ?_⟩
  have hea : u.ea = s.ea := congrArg BitVec.toNat hi
  have hread : ∀ k ≤ x.val, Readable (u.ea + k) := fun k hk => hea ▸ (hw k hk).left
  refine ⟨_, exec_ldLoad_of_readable hread, hi, fun r hr => ?_⟩
  rw [State.reg_setRegsUpTo, if_pos hr, hmem, hea]
  exact Memory.read_storedRegs s x r hr

/-! ### The index register -/

/-- Settles O31: the new I is NNN zero-extended. -/
theorem ldISetsTheIndex : Obligations.LdISetsTheIndex :=
  fun nnn _ => ⟨decodeWord_encode (.ldI nnn), address nnn, address_toNat nnn, rfl⟩

/-- Settles O33: the new I is the address of the glyph. -/
theorem ldFPointsAtTheGlyph : Obligations.LdFPointsAtTheGlyph :=
  fun x s => ⟨decodeWord_encode (.ldF x), glyphAddress (s.reg x), glyphAddress_toNat (s.reg x), rfl⟩

/-! FX1E by its sum and, for a sum above 0xFFF, by the value of FX1E_OVERFLOW (R151). -/

section
variable {s : State} {x : Reg}

theorem addIWith_of_le (p : OverflowPolicy) (h : s.i.toNat + (s.reg x).toNat ≤ 0xFFF) :
    addIWith p x s = .next (s.advance.setI (BitVec.ofNat 16 (s.i.toNat + (s.reg x).toNat))) := by
  have hsum : indexSumWith p s.i (s.reg x) = .ok _ := if_pos h
  rw [addIWith, hsum]

theorem addIWith_wrap12_of_lt (h : 0xFFF < s.i.toNat + (s.reg x).toNat) :
    addIWith .wrap12 x s = .next (s.advance.setI (BitVec.ofNat 16 ((s.i.toNat + (s.reg x).toNat) % 0x1000))) := by
  have hsum : indexSumWith .wrap12 s.i (s.reg x) = .ok _ := if_neg (not_le.mpr h)
  rw [addIWith, hsum]

theorem addIWith_fault_of_lt (h : 0xFFF < s.i.toNat + (s.reg x).toNat) :
    addIWith .fault x s = raise (.addI x) (.memory (s.i.toNat + (s.reg x).toNat)) s := by
  have hsum : indexSumWith .fault s.i (s.reg x) = .error _ := if_neg (not_le.mpr h)
  rw [addIWith, hsum]

end

/-- Settles O32, by the sum and then the two values of FX1E_OVERFLOW: a new I is below 0x1000, so 16 bits hold it. -/
theorem addIAddsVxToTheIndex : Obligations.AddIAddsVxToTheIndex := by
  refine fun x s => ⟨decodeWord_encode (.addI x), fun hsmall => ?_, fun hlarge => ?_⟩
  · exact ⟨_, toNat_ofNat_of_lt (by omega), addIWith_of_le _ hsmall⟩
  · have hexec : exec (.addI x) s = addIWith Config.fx1eOverflow x s := rfl
    split
    next hp =>
      rw [hexec, hp]
      exact ⟨_, toNat_ofNat_of_lt (by omega), addIWith_wrap12_of_lt hlarge⟩
    next hp =>
      rw [hexec, hp]
      exact addIWith_fault_of_lt hlarge

end Sys2Proof.Machine
end

section
/-! PROOFS. The statements about the timers and the key wait (spec/46_timers_keys.md). -/

namespace Sys2Proof.Machine

/-! ### The key wait (R161, D17) -/

section
variable {s : State} (x : Reg)

/-- With a key pressed, FX0A is a write of the least one's number to Vx. -/
theorem exec_ldVxK_of_leastKey_eq_some {k : Reg} (h : s.leastKey = some k) :
    exec (.ldVxK x) s = finishReg x (BitVec.ofNat 8 k.val) s := by
  show execLdVxK x s = _
  rw [execLdVxK, h, finishReg]

/-- With no key pressed, FX0A leaves the state as it is. -/
theorem exec_ldVxK_of_leastKey_eq_none (h : s.leastKey = none) : exec (.ldVxK x) s = .next s := by
  show execLdVxK x s = _
  rw [execLdVxK, h]

end

/-- Settles O39: the search finds the least pressed key, whose number a byte holds, or none. -/
theorem keyWaitTakesTheLeastKey : Obligations.KeyWaitTakesTheLeastKey := by
  refine fun x s => ⟨decodeWord_encode (.ldVxK x), fun k hk hleast => ?_, fun hnone => ?_⟩
  · have hkey : s.leastKey = some k := (s.leastKey_eq_some_iff k).mpr ⟨hk, hleast⟩
    obtain ⟨v, hv, hreg⟩ := finishReg_writes x (BitVec.ofNat 8 k.val) s
    refine ⟨v, (exec_ldVxK_of_leastKey_eq_some x hkey).trans hv, ?_, fun r hr => (hreg r).trans (if_neg hr)⟩
    rw [hreg, if_pos rfl, toNat_ofNat_of_lt (by omega)]
  · exact exec_ldVxK_of_leastKey_eq_none x (s.leastKey_eq_none_iff.mpr hnone)

/-! ### The timers (R160, R162, R163) -/

/-- Settles O37: FX07 is a write of the delay timer to Vx. -/
theorem delayTimerIsReadAndWritten : Obligations.DelayTimerIsReadAndWritten :=
  fun x s => ⟨decodeWord_encode (.ldVxDt x), decodeWord_encode (.ldDt x), finishReg_writes x s.dt s, rfl⟩

/-- The tone is active exactly while the sound timer is not 0 (R183, D26). -/
theorem State.toneActive_iff (s : State) : s.toneActive = true ↔ s.st ≠ 0 := bne_iff_ne

/-- Settles O38: the sound timer after the step is Vx. -/
theorem soundTimerIsWritten : Obligations.SoundTimerIsWritten :=
  fun x _ => ⟨decodeWord_encode (.ldSt x), _, rfl, rfl, State.toneActive_iff _⟩

end Sys2Proof.Machine
end

section
/-! PROOFS. The statements about the faults and about the transactions that are no STEP (spec/60_exceptions.md). -/

namespace Sys2Proof.Machine

/-! ### The faults an instruction raises (R170) -/

/-- The causes an instruction can raise (R170; KeyIndexFault is D16, the MemoryFault of FX1E is D15). -/
inductive Raises : Instr → FaultCause → Prop where
  | drw (x y : Reg) (n : Fin 16) (a : Nat) : Raises (.drw x y n) (.memory a)
  | addI (x : Reg) (a : Nat) : Raises (.addI x) (.memory a)
  | ldB (x : Reg) (a : Nat) : Raises (.ldB x) (.memory a)
  | ldStore (x : Reg) (a : Nat) : Raises (.ldStore x) (.memory a)
  | ldLoad (x : Reg) (a : Nat) : Raises (.ldLoad x) (.memory a)
  | call (nnn : BitVec 12) : Raises (.call nnn) .stackOverflow
  | ret : Raises .ret .stackUnderflow
  | skp (x : Reg) (b : Byte) : Raises (.skp x) (.keyIndex b)
  | sknp (x : Reg) (b : Byte) : Raises (.sknp x) (.keyIndex b)

section
variable {i : Instr} {s t : State}

/-- An instruction keeps the fault status, or takes a fault of a cause it raises. -/
theorem exec_keeps_or_takes_fault (h : exec i s = .next t) :
    t.fault = s.fault ∨ ∃ c, Raises i c ∧ t = s.takeFault (some (encode i)) c := by
  cases i
  case drw =>
    rcases execDrw_next h with ⟨_, rfl⟩ | ⟨_, _, _, _, rfl⟩
    · exact .inl (by simp)
    · exact .inr ⟨_, .drw _ _ _ _, rfl⟩
  case addI =>
    rcases addIWith_next h with ⟨_, _, rfl⟩ | ⟨_, _, rfl⟩
    · exact .inl (by simp)
    · exact .inr ⟨_, .addI _ _, rfl⟩
  case ldB =>
    rcases storeAtIWith_next h with ⟨_, rfl⟩ | ⟨_, _, _, _, rfl⟩
    · exact .inl (by simp)
    · exact .inr ⟨_, .ldB _ _, rfl⟩
  case ldStore =>
    rcases storeAtIWith_next h with ⟨_, rfl⟩ | ⟨_, _, _, _, rfl⟩
    · exact .inl (by simp)
    · exact .inr ⟨_, .ldStore _ _, rfl⟩
  case ldLoad =>
    rcases execLdLoad_next h with ⟨_, rfl⟩ | ⟨_, _, _, _, rfl⟩
    · exact .inl (by simp)
    · exact .inr ⟨_, .ldLoad _ _, rfl⟩
  case call =>
    rcases execCall_next h with ⟨_, rfl⟩ | ⟨_, rfl⟩
    · exact .inl (by simp)
    · exact .inr ⟨_, .call _, rfl⟩
  case ret =>
    rcases execRet_next h with ⟨_, rfl⟩ | ⟨_, rfl⟩
    · exact .inl (by simp)
    · exact .inr ⟨_, .ret, rfl⟩
  case skp =>
    rcases finishKeySkip_next h with ⟨_, _, rfl⟩ | ⟨_, rfl⟩
    · exact .inl (by simp)
    · exact .inr ⟨_, .skp _ _, rfl⟩
  case sknp =>
    rcases finishKeySkip_next h with ⟨_, _, rfl⟩ | ⟨_, rfl⟩
    · exact .inl (by simp)
    · exact .inr ⟨_, .sknp _ _, rfl⟩
  case ldVxK =>
    rcases execLdVxK_next h with ⟨_, _, rfl⟩ | ⟨_, rfl⟩
    · exact .inl (by simp)
    · exact .inl rfl
  all_goals
    cases h
    exact .inl (by simp)

/-- An instruction that leaves a fault where none was took it. -/
theorem exec_takes_fault {r : FaultRecord} (hn : s.fault = none) (h : exec i s = .next t) (hr : t.fault = some r) :
    ∃ c, Raises i c ∧ t = s.takeFault (some (encode i)) c := by
  rcases exec_keeps_or_takes_fault h with hkept | htaken
  · rw [hkept, hn] at hr
    cases hr
  · exact htaken

/-- Settles O12, by the causes the instructions raise. -/
theorem eachFaultKindHasItsInstructions : Obligations.EachFaultKindHasItsInstructions := by
  intro i s t r hn h hr
  obtain ⟨c, hc, rfl⟩ := exec_takes_fault hn h hr
  obtain rfl : c.record s.pc (some (encode i)) = r := Option.some.inj hr
  cases hc with
  | drw x y n => exact .inl ⟨x, y, n, rfl⟩
  | addI x => exact .inr ⟨x, .inl rfl⟩
  | ldB x => exact .inr ⟨x, .inr (.inl rfl)⟩
  | ldStore x => exact .inr ⟨x, .inr (.inr (.inl rfl))⟩
  | ldLoad x => exact .inr ⟨x, .inr (.inr (.inr rfl))⟩
  | call nnn => exact ⟨nnn, rfl⟩
  | ret => exact rfl
  | skp x => exact ⟨x, .inl rfl⟩
  | sknp x => exact ⟨x, .inr rfl⟩

/-! ### The fault a STEP takes (R171, R172, D19) -/

/-- A STEP that leaves a fault where none was took it, with the fetched word as its opcode, or as a MemoryFault with no
opcode if the fetch failed. -/
theorem step_takes_fault {r : FaultRecord} (hn : s.fault = none) (h : step s = .next t) (hr : t.fault = some r) :
    ∃ o c, t = s.takeFault o c ∧ (∀ w, fetch s = .ok w → o = some w) ∧
      ∀ a, fetch s = .error a → o = none ∧ c = .memory a := by
  cases step_effect h with
  | halted q hq => simp [hn] at hq
  | fetchFault a _ hf => exact ⟨none, _, rfl, by simp [hf], by simp [hf]⟩
  | unknown w _ hf => exact ⟨some w, _, rfl, by simp [hf], by simp [hf]⟩
  | instruction w i _ _ hf hd he =>
    obtain ⟨c, _, ht⟩ := exec_takes_fault hn he hr
    rw [encode_of_decodeWord hd] at ht
    exact ⟨some w, c, ht, by simp [hf], by simp [hf]⟩

end

/-- Settles O10: the record is the one of the fault taken. -/
theorem faultsArePrecise : Obligations.FaultsArePrecise := by
  intro s t r hn h hr
  have hstatus : s.stepStatus = .faulted r := by
    rw [State.stepStatus_eq_faulted_iff, State.afterStep_of_next h, hr]
  obtain ⟨o, c, rfl, hok, herror⟩ := step_takes_fault hn h hr
  obtain rfl : c.record s.pc o = r := Option.some.inj hr
  refine ⟨rfl, c.record_pc s.pc o, hstatus, fun w hf => ?_, fun a hf => ?_⟩
  · rw [FaultCause.record_opcode, hok w hf]
  · obtain ⟨rfl, rfl⟩ := herror a hf
    exact ⟨rfl, rfl⟩

/-! ### A recorded fault stays (R173, D20) -/

theorem State.load_fault (s : State) (rom : List Byte) : (s.load rom).1.fault = s.fault := by
  unfold State.load
  split <;> rfl

/-- Every transaction but INIT keeps a recorded fault. -/
theorem transact_keeps_fault {s : State} {r : FaultRecord} (hr : s.fault = some r) {tr : Transaction}
    (htr : tr ≠ .init) : (transact tr s).1.fault = some r := by
  cases tr with
  | init => exact absurd rfl htr
  | load rom => exact (s.load_fault rom).trans hr
  | step => exact (congrArg State.fault (State.afterStep_of_next (step_of_fault hr))).trans hr
  | tick | keyset | redrawAck => exact hr

/-- Settles O9: the STEP of a halted state leaves it as it is, its fault among the rest. -/
theorem faultIsStickyUntilInit : Obligations.FaultIsStickyUntilInit := by
  intro s r hr
  have hstep := step_of_fault hr
  have hstatus : s.stepStatus = .faulted r := by
    rw [State.stepStatus_eq_faulted_iff, State.afterStep_of_next hstep, hr]
  exact ⟨hstep, hstatus, fun _ htr => transact_keeps_fault hr htr, rfl⟩

/-! ### TICK, KEYSET and REDRAW_ACK (R182–R188) -/

/-- A timer counts down by one and stops at zero (R182, D25). -/
theorem toNat_countDown (b : Byte) : (countDown b).toNat = b.toNat - 1 := by
  unfold countDown
  split
  next hb => simp [hb]
  next hb => bv_omega

/-- TICK triggers the tone exactly at ST = 1 (R184). -/
theorem State.toneTrigger_iff (s : State) : s.toneTrigger = true ↔ s.st.toNat = 1 := by
  rw [State.toneTrigger, beq_iff_eq, BitVec.toNat_eq]
  rfl

/-- Settles O52: ST = 1 is the one value above 0 that a count down takes to 0. -/
theorem tickCountsTheTimersDown : Obligations.TickCountsTheTimersDown := by
  refine fun s => ⟨_, _, _, rfl, toNat_countDown s.dt, toNat_countDown s.st, ?_⟩
  rw [s.toneTrigger_iff, toNat_countDown]
  omega

/-- A latch set is read back, and every other one keeps its level (R186, D28). -/
theorem State.pressed_keyset (s : State) (k j : Reg) (b : Bool) :
    (s.keyset k b).pressed j = if j = k then b else s.pressed j := by
  simp only [State.pressed, State.keyset, Vector.get_eq_getElem, Vector.getElem_set, Fin.ext_iff, eq_comm]

/-- Settles O53: KEYSET by the latches after it. -/
theorem keysetAndRedrawAckChangeOneElement : Obligations.KeysetAndRedrawAckChangeOneElement :=
  fun k b s => ⟨⟨_, rfl, fun j => s.pressed_keyset k j b⟩, rfl⟩

end Sys2Proof.Machine
end

section
/-! PROOFS. The statements about reset and hazards (spec/70_reset_and_hazards.md). -/

namespace Sys2Proof.Machine

/-! ### A parked program (R206, D30) -/

section
variable {s : State}

/-- A jump to the address that PC holds leaves the state as it is (R111). -/
theorem exec_jp_of_toNat_eq_pc {nnn : BitVec 12} (h : nnn.toNat = s.pc.toNat) : exec (.jp nnn) s = .next s := by
  have hpc : address nnn = s.pc := BitVec.eq_of_toNat_eq ((address_toNat nnn).trans h)
  change Host.Outcome.next (s.setPc (address nnn)) = .next s
  rw [hpc]
  rfl

/-- A state about to execute an instruction other than FX0A does not wait (R161, R189). -/
theorem State.waits_eq_false_of_fetch {i : Instr} (hf : fetch s = .ok (encode i)) (hi : isKeyWait i = false) :
    s.waits = false := by
  simp [State.waits, hf, decodeWord_encode, hi]

/-- A STEP that records no fault, from a state that does not wait, is Executed (R30). -/
theorem State.stepStatus_eq_executed (hfault : s.afterStep.fault = none) (hw : s.waits = false) :
    s.stepStatus = .executed := by
  simp [State.stepStatus, hfault, hw]

theorem step_of_parked (h : s.Parked) : step s = .next s := by
  obtain ⟨hn, nnn, hpc, hf⟩ := h
  rw [step_of_decoded hn hf (decodeWord_encode (.jp nnn)), exec_jp_of_toNat_eq_pc hpc]

end

/-- Settles O57: the parked jump sets PC to the value it has, so its STEP records no fault and does not wait. -/
theorem parkedStepChangesNothing : Obligations.ParkedStepChangesNothing := by
  intro s h
  have hsame : s.afterStep = s := State.afterStep_of_next (step_of_parked h)
  obtain ⟨hn, nnn, _, hf⟩ := h
  have hfault : s.afterStep.fault = none := by rw [hsame, hn]
  have hstatus : s.stepStatus = .executed := State.stepStatus_eq_executed hfault (State.waits_eq_false_of_fetch hf rfl)
  rw [transact, hsame, hstatus]

end Sys2Proof.Machine
end
